-- ==== Sys2Proof/Word.lean ====
section
/-! DEFINITION. The word types of the bit-buffer engine (00_scope.md R3, R4; 30_encoding.md R45). -/

namespace Sys2Proof

/-- A buffer byte: "a buffer is a sequence of 8-bit bytes" (00_scope.md R3). -/
abbrev Byte := BitVec 8

/-- A `u32`: every byte index, length, cursor, `XMEM` address and field value (00_scope.md R3, R4 with `AW = 32`). -/
abbrev Word := BitVec 32

/-- A command word `C[95:0]`, presented whole on the command port (30_encoding.md R45). -/
abbrev CmdWord := BitVec 96

end Sys2Proof
end

