-- ==== Sys2Proof/Syntax.lean ====
section
/-! DEFINITION. The ten commands of the engine, one constructor per row of the opcode table (30_encoding.md R49).
Context indices and widths are natural numbers that must fit the 8-bit fields `u`, `s`, `n` (`Instr.WellFormed`);
the operands `a` and `b` are `u32` words (30_encoding.md R46, R47). -/

namespace Sys2Proof

/-- A decoded command (30_encoding.md R49, R54). -/
inductive Instr where
  /-- `WRITE w<u>, <n>, <value>`: append the `n` low bits of `value` to writer `u` (40_writer.md R62). -/
  | write (u n : Nat) (value : Word)
  /-- `WALIGN0 w<u>`: pad writer `u` with zero bits to a byte boundary (40_writer.md R64). -/
  | walign0 (u : Nat)
  /-- `WALIGN1 w<u>`: pad writer `u` with one bits to a byte boundary (40_writer.md R65). -/
  | walign1 (u : Nat)
  /-- `WLEN w<u>`: respond with the number of flushed bytes (40_writer.md R66). -/
  | wlen (u : Nat)
  /-- `WBYTE w<u>, <index>`: respond with one flushed byte (40_writer.md R67). -/
  | wbyte (u : Nat) (index : Word)
  /-- `WCLEAR w<u>`: reset writer `u` to the empty state (40_writer.md R68). -/
  | wclear (u : Nat)
  /-- `WINSERT w<u>, w<src>, <position>`: splice the buffer of `src` into the buffer of `u` (41_splice.md R76). -/
  | winsert (u src : Nat) (position : Word)
  /-- `RBIND r<u>, <base>, <length>`: bind reader `u` to bytes of `XMEM` (42_reader.md R81). -/
  | rbind (u : Nat) (base length : Word)
  /-- `READ r<u>, <n>`: deliver and consume `n` bits (42_reader.md R83). -/
  | read (u n : Nat)
  /-- `PREAD r<u>, <n>`: deliver `n` bits without consuming them (43_lookahead.md R91). -/
  | pread (u n : Nat)
  deriving DecidableEq, Repr

/-- The mnemonic of a command, as the opcode table spells it (30_encoding.md R49). -/
def Instr.mnemonic : Instr → String
  | .write _ _ _ => "WRITE"
  | .walign0 _ => "WALIGN0"
  | .walign1 _ => "WALIGN1"
  | .wlen _ => "WLEN"
  | .wbyte _ _ => "WBYTE"
  | .wclear _ => "WCLEAR"
  | .winsert _ _ _ => "WINSERT"
  | .rbind _ _ _ => "RBIND"
  | .read _ _ => "READ"
  | .pread _ _ => "PREAD"

end Sys2Proof
end

