-- ==== Sys2Proof/WellFormed.lean ====
section
/-! DEFINITION. Which commands a command word can carry: the fields `u`, `s` and `n` are 8 bits wide
(30_encoding.md R46, R47). The 32-bit operands fit by their type. Whether a context exists and whether a width is
at most 32 is NOT well-formedness: it is checked at execution (30_encoding.md R56, 60_exceptions.md R114). -/

namespace Sys2Proof

/-- A context index or a width that the 8-bit fields `u`, `s`, `n` can hold (30_encoding.md R47). -/
abbrev FitsField (x : Nat) : Prop := x < 256

/-- The check on a command's fields, one for each 8-bit field it uses (30_encoding.md R46, R47). -/
def Instr.wellFormed : Instr → Bool
  | .write u n _ => decide (FitsField u) && decide (FitsField n)
  | .walign0 u => decide (FitsField u)
  | .walign1 u => decide (FitsField u)
  | .wlen u => decide (FitsField u)
  | .wbyte u _ => decide (FitsField u)
  | .wclear u => decide (FitsField u)
  | .winsert u src _ => decide (FitsField u) && decide (FitsField src)
  | .rbind u _ _ => decide (FitsField u)
  | .read u n => decide (FitsField u) && decide (FitsField n)
  | .pread u n => decide (FitsField u) && decide (FitsField n)

/-- A command that some command word carries (30_encoding.md R46, R47). -/
abbrev Instr.WellFormed (i : Instr) : Prop := i.wellFormed = true

end Sys2Proof
end

