-- ==== Sys2Proof/Decode.lean ====
section
/-! DEFINITION. The command format `C` (30_encoding.md R46), the decoder (R56), the encoder, and the opcode map (R49). -/

namespace Sys2Proof

/-! ### The fields of format `C` (30_encoding.md R46) -/

/-- `op = C[95:88]`. -/
def fieldOp (c : CmdWord) : BitVec 8 := c.extractLsb' 88 8
/-- `u = C[87:80]`. -/
def fieldU (c : CmdWord) : BitVec 8 := c.extractLsb' 80 8
/-- `n = C[79:72]`. -/
def fieldN (c : CmdWord) : BitVec 8 := c.extractLsb' 72 8
/-- `s = C[71:64]`. -/
def fieldS (c : CmdWord) : BitVec 8 := c.extractLsb' 64 8
/-- `a = C[63:32]`. -/
def fieldA (c : CmdWord) : Word := c.extractLsb' 32 32
/-- `b = C[31:0]`. -/
def fieldB (c : CmdWord) : Word := c.extractLsb' 0 32

/-- The six fields of format `C` joined into a command word (30_encoding.md R46). -/
def pack (op u n s : BitVec 8) (a b : Word) : CmdWord :=
  op ++ u ++ n ++ s ++ a ++ b

/-! ### Decoding (30_encoding.md R56) -/

/-- `decode(C)`: a total function from command words to commands, `none` standing for `illegal`.
It looks at no state; the ranges of `u`, `s`, `n` are checked at execution (30_encoding.md R56). -/
def decode (c : CmdWord) : Option Instr :=
  let op := fieldOp c
  let u := (fieldU c).toNat
  let n := fieldN c
  let s := fieldS c
  let a := fieldA c
  let b := fieldB c
  if op = 0x01#8 then
    if s = 0#8 ∧ b = 0#32 then some (.write u n.toNat a) else none
  else if op = 0x02#8 then
    if n = 0#8 ∧ s = 0#8 ∧ a = 0#32 ∧ b = 0#32 then some (.walign0 u) else none
  else if op = 0x03#8 then
    if n = 0#8 ∧ s = 0#8 ∧ a = 0#32 ∧ b = 0#32 then some (.walign1 u) else none
  else if op = 0x04#8 then
    if n = 0#8 ∧ s = 0#8 ∧ a = 0#32 ∧ b = 0#32 then some (.wlen u) else none
  else if op = 0x05#8 then
    if n = 0#8 ∧ s = 0#8 ∧ b = 0#32 then some (.wbyte u a) else none
  else if op = 0x06#8 then
    if n = 0#8 ∧ s = 0#8 ∧ a = 0#32 ∧ b = 0#32 then some (.wclear u) else none
  else if op = 0x07#8 then
    if n = 0#8 ∧ b = 0#32 then some (.winsert u s.toNat a) else none
  else if op = 0x10#8 then
    if n = 0#8 ∧ s = 0#8 then some (.rbind u a b) else none
  else if op = 0x11#8 then
    if s = 0#8 ∧ a = 0#32 ∧ b = 0#32 then some (.read u n.toNat) else none
  else if op = 0x12#8 then
    if s = 0#8 ∧ a = 0#32 ∧ b = 0#32 then some (.pread u n.toNat) else none
  else none

/-! ### Encoding (30_encoding.md R46, R49, R50) -/

/-- The opcode of a command (30_encoding.md R49). -/
def opcode : Instr → BitVec 8
  | .write _ _ _ => 0x01#8
  | .walign0 _ => 0x02#8
  | .walign1 _ => 0x03#8
  | .wlen _ => 0x04#8
  | .wbyte _ _ => 0x05#8
  | .wclear _ => 0x06#8
  | .winsert _ _ _ => 0x07#8
  | .rbind _ _ _ => 0x10#8
  | .read _ _ => 0x11#8
  | .pread _ _ => 0x12#8

/-- An index or width as the 8-bit field that carries it (30_encoding.md R47). -/
def field8 (x : Nat) : BitVec 8 := BitVec.ofNat 8 x

/-- The command word of a well-formed command: its opcode, the fields it uses, and zero in every field it does not
use (30_encoding.md R49, R50). -/
def encode (i : Instr) : CmdWord :=
  match i with
  | .write u n value => pack (opcode i) (field8 u) (field8 n) 0#8 value 0#32
  | .walign0 u => pack (opcode i) (field8 u) 0#8 0#8 0#32 0#32
  | .walign1 u => pack (opcode i) (field8 u) 0#8 0#8 0#32 0#32
  | .wlen u => pack (opcode i) (field8 u) 0#8 0#8 0#32 0#32
  | .wbyte u index => pack (opcode i) (field8 u) 0#8 0#8 index 0#32
  | .wclear u => pack (opcode i) (field8 u) 0#8 0#8 0#32 0#32
  | .winsert u src position => pack (opcode i) (field8 u) 0#8 (field8 src) position 0#32
  | .rbind u base length => pack (opcode i) (field8 u) 0#8 0#8 base length
  | .read u n => pack (opcode i) (field8 u) (field8 n) 0#8 0#32 0#32
  | .pread u n => pack (opcode i) (field8 u) (field8 n) 0#8 0#32 0#32

/-! ### The opcode map (30_encoding.md R49) -/

/-- One row of the match and mask table of 30_encoding.md R49. -/
structure OpcodeRow where
  mnemonic : String
  pattern : CmdWord
  mask : CmdWord
  deriving DecidableEq, Repr

/-- A word is the command of a row exactly when `C & mask = match` (30_encoding.md R49). -/
abbrev OpcodeRow.Matches (r : OpcodeRow) (c : CmdWord) : Prop := c &&& r.mask = r.pattern

/-- The match and mask table, as 30_encoding.md R49 prints it. -/
def opcodeRows : List OpcodeRow :=
  [ ⟨"WRITE", 0x010000000000000000000000#96, 0xFF0000FF00000000FFFFFFFF#96⟩
  , ⟨"WALIGN0", 0x020000000000000000000000#96, 0xFF00FFFFFFFFFFFFFFFFFFFF#96⟩
  , ⟨"WALIGN1", 0x030000000000000000000000#96, 0xFF00FFFFFFFFFFFFFFFFFFFF#96⟩
  , ⟨"WLEN", 0x040000000000000000000000#96, 0xFF00FFFFFFFFFFFFFFFFFFFF#96⟩
  , ⟨"WBYTE", 0x050000000000000000000000#96, 0xFF00FFFF00000000FFFFFFFF#96⟩
  , ⟨"WCLEAR", 0x060000000000000000000000#96, 0xFF00FFFFFFFFFFFFFFFFFFFF#96⟩
  , ⟨"WINSERT", 0x070000000000000000000000#96, 0xFF00FF0000000000FFFFFFFF#96⟩
  , ⟨"RBIND", 0x100000000000000000000000#96, 0xFF00FFFF0000000000000000#96⟩
  , ⟨"READ", 0x110000000000000000000000#96, 0xFF0000FFFFFFFFFFFFFFFFFF#96⟩
  , ⟨"PREAD", 0x120000000000000000000000#96, 0xFF0000FFFFFFFFFFFFFFFFFF#96⟩ ]

/-! ### The word the host counts bits in -/

/-- The instruction the decoder reads from the bits `w` of which `nbits` are given, every bit above them 0.
The command word is one 96-bit word, so the numbering of the opcode table is that of 30_encoding.md R46 (log 12). -/
def decodeTableWord (nbits w : Nat) : Option Instr :=
  decode (BitVec.ofNat 96 (w % 2 ^ nbits))

end Sys2Proof
end

