-- ==== Sys2Proof/Config.lean ====
section
/-! DEFINITION. What an implementation of the engine fixes: the parameters of 00_scope.md R4, and the one value
the model names for a byte of external memory that its list does not hold. -/

namespace Sys2Proof

/-- The parameters the source leaves open and the spec names (00_scope.md R4). -/
structure Params where
  /-- `NW`, the number of writer contexts. -/
  nw : Nat
  /-- `NR`, the number of reader contexts. -/
  nr : Nat
  /-- `WCAP`, the capacity in bytes of each writer buffer. -/
  wcap : Nat
  deriving DecidableEq, Repr

/-- The ranges of the parameters (00_scope.md R4). -/
abbrev Params.InRange (p : Params) : Prop :=
  (1 ≤ p.nw ∧ p.nw ≤ 256) ∧ (1 ≤ p.nr ∧ p.nr ≤ 256) ∧ (1 ≤ p.wcap ∧ p.wcap ≤ 2 ^ 32 - 1)

/-- The parameter values of `State.reset`: the values 00_scope.md R4 gives for the test vectors.
DESIGN CHOICE (log 1), unsafe for a claim about `State.reset` alone: the spec leaves the parameters open.
A claim about every state holds for every parameter. -/
def Config.params : Params := { nw := 2, nr := 1, wcap := 2 ^ 32 - 1 }

/-- What a byte of `XMEM` reads as when the memory list holds no entry for its address.
DESIGN CHOICE (log 2), unsafe for a claim about `State.reset` alone: the spec calls the contents of `XMEM`
any value, given by the host (10_state.md R29, 93_implementation_defined.md U11). Every total content is some list. -/
def Config.unlistedByte : Byte := 0#8

end Sys2Proof
end

