-- ==== Sys2Proof/Machine/State.lean ====
section
/-! DEFINITION. The state of the machine: every field 10_state.md gives the engine, the memory and the actions of the
host that the step reads, and the responses the host observes. Plain data throughout. -/

namespace Sys2Proof.Machine

/-! ### Causes, faults of the model, refusals -/

/-- The eleven causes a command can raise (60_exceptions.md R110, 93_implementation_defined.md U18). -/
inductive Cause where
  /-- The word matches no command (R115). -/
  | illegal
  /-- A context index is out of range (R116). -/
  | unit
  /-- `n > 32` (R117). -/
  | width
  /-- `value` has a bit set at position `n` or above (R118). -/
  | value
  /-- The buffer would exceed `WCAP` (R119). -/
  | overflow
  /-- The index is not below `len` (R120). -/
  | index
  /-- Source and destination context are the same (R121). -/
  | self
  /-- The source context holds bits (R122). -/
  | unaligned
  /-- `position > len` of the destination (R123). -/
  | position
  /-- `base + length > 2^32` (R124). -/
  | bind
  /-- More bits asked than the bound buffer has left (R125). -/
  | overrun
  deriving DecidableEq, Repr

/-- A stop of the model that is no behaviour of the engine. The engine's own faults are NEXT states: they set `FAULT`
and answer a response (60_exceptions.md R111, log 11). -/
inductive Fault where
  /-- Raised by a load of `READ` or `PREAD` at an address of `2^32` or above, which does not exist
  (20_memory.md R31). Safe: `base + blen <= 2^32` always holds (10_state.md R18), so no reachable state
  raises it (log 6). -/
  | outsideXmem
  deriving DecidableEq, Repr

/-- A step without a meaning. -/
inductive Refusal where
  /-- Raised by an arm of `exec` whose instruction has no meaning yet, by its mnemonic; safe, nothing can be proved of
  such a step. No arm of this model raises it. -/
  | notModelled (mnemonic : String)
  deriving DecidableEq, Repr

/-! ### Contexts and registers -/

/-- The state of one writer context (10_state.md R11 to R14). `len` is the length of `buf`, stored once (log 5). -/
structure Writer where
  /-- The bytes `buf[0 : len]`; a byte at index `len` or above does not exist (R11). -/
  buf : List Byte
  /-- The bits not yet byte-aligned, left-justified (R13). -/
  held : BitVec 8
  /-- How many bits of `held` are valid, 0 to 7 (R14). -/
  nheld : BitVec 3
  deriving DecidableEq, Repr

/-- The state of one reader context (10_state.md R18 to R21). -/
structure Reader where
  /-- The `XMEM` address of the bound buffer (R18). -/
  base : Word
  /-- The length in bytes of the bound buffer (R18). -/
  blen : Word
  /-- The index of the next unread byte (R19). -/
  cursor : Word
  /-- The last byte loaded; its `nheld` low bits are unconsumed, the bits above are stale (R20). -/
  held : BitVec 8
  /-- How many low bits of `held` are unconsumed, 0 to 7 (R21). -/
  nheld : BitVec 3
  deriving DecidableEq, Repr

/-- The `FAULT` register, 9 bits (10_state.md R25). -/
structure FaultReg where
  /-- `FAULT[8]`: a command has faulted since reset and the engine is halted. -/
  valid : Bool
  /-- `FAULT[7:0]`: the cause code of the first fault, 0 when `valid` is 0. -/
  cause : BitVec 8
  deriving DecidableEq, Repr

/-! ### The ports -/

/-- The status bit `[32]` of a response (30_encoding.md R52). -/
inductive Status where
  /-- 0: the command completed. -/
  | ok
  /-- 1: the command faulted, or the engine was already halted. -/
  | fault
  deriving DecidableEq, Repr

/-- A response of the engine (30_encoding.md R52). -/
structure Response where
  /-- Bit `[32]`. -/
  st : Status
  /-- Bits `[31:0]`: the result, or the zero-extended cause. -/
  data : Word
  deriving DecidableEq, Repr

/-- What the host does between commands or to issue one (30_encoding.md R45, 20_memory.md R44,
70_reset_and_hazards.md R131, R142). -/
inductive HostAction where
  /-- Present a command word on the command port. -/
  | command (c : CmdWord)
  /-- Write one byte of `XMEM`. -/
  | writeXmem (addr : Word) (b : Byte)
  /-- Drive the reset input. -/
  | reset
  deriving DecidableEq, Repr

/-- The external byte memory: `(address, byte)` pairs in the canonical form of `Memory.wf`. -/
abbrev Memory := List Host.Cell

/-! ### The whole state -/

/-- The machine: the engine's contexts and its `FAULT` register (10_state.md R10), with the environment's `XMEM`
(R29), the actions the host has still to take, and the trace of responses it has observed (30_encoding.md R52). -/
structure State where
  /-- `W[0..NW-1]`; `NW` is the length (00_scope.md R4, log 1). -/
  writers : List Writer
  /-- `R[0..NR-1]`; `NR` is the length (00_scope.md R4, log 1). -/
  readers : List Reader
  /-- The `FAULT` register (10_state.md R25). -/
  fault : FaultReg
  /-- The host's byte memory (10_state.md R29). -/
  xmem : Memory
  /-- The parameter `WCAP`, which no step changes (00_scope.md R4, log 1). -/
  wcap : Nat
  /-- What the host does next, first action first (log 3). -/
  host : List HostAction
  /-- The responses so far, first response first (70_reset_and_hazards.md R142, log 4). -/
  trace : List Response
  deriving DecidableEq, Repr

/-! ### Reset values (10_state.md R28) -/

/-- A writer "created empty" (10_state.md R16, R28). -/
def Writer.empty : Writer := { buf := [], held := 0#8, nheld := 0#3 }

/-- A reader bound to the `length` bytes at `base`, nothing consumed (42_reader.md R81). -/
def Reader.bound (base length : Word) : Reader :=
  { base := base, blen := length, cursor := 0#32, held := 0#8, nheld := 0#3 }

/-- A reader after reset: bound to the empty buffer (10_state.md R24, R28). -/
def Reader.unbound : Reader := Reader.bound 0#32 0#32

/-- `FAULT` while no fault is recorded (10_state.md R25, R28). -/
def FaultReg.clear : FaultReg := { valid := false, cause := 0#8 }

/-- The state after reset of an engine with parameters `p`, over the external memory `x`, with nothing presented yet
(10_state.md R28; 70_reset_and_hazards.md R131). -/
def State.resetWith (p : Params) (x : Memory) : State :=
  { writers := List.replicate p.nw Writer.empty
    readers := List.replicate p.nr Reader.unbound
    fault := FaultReg.clear
    xmem := x
    wcap := p.wcap
    host := []
    trace := [] }

/-- The machine right after reset (10_state.md R28), with the parameters of the test vectors (log 1) and no byte of
`XMEM` listed (log 2). -/
def State.reset : State := State.resetWith Config.params []

end Sys2Proof.Machine
end

