-- ==== Sys2Proof/Machine/Operands.lean ====
section
/-! DEFINITION. The quantities the datapath computes from the operands of a command and the context it names, on exact
natural numbers as 00_scope.md section 7 writes them: the shifter of `WRITE` (40_writer.md R61) and the reader's counts
(42_reader.md R82). The engine has no register operand and no addressing mode (30_encoding.md R48); a context index
selects a whole context (`State.withWriter`, `State.withReader` in Ops). -/

namespace Sys2Proof.Machine

/-- `mask(k) = 2^k - 1` (00_scope.md section 7). -/
def mask (k : Nat) : Nat := 2 ^ k - 1

/-- `W[i].len`, the number of bytes in `W[i].buf` (10_state.md R12, log 5). -/
def Writer.len (w : Writer) : Nat := w.buf.length

/-! ### The shifter of `WRITE` (40_writer.md R61) -/

/-- `total = n + h`. -/
def totalBits (n h : Nat) : Nat := n + h

/-- `nh = total mod 8`, the next count of held bits. -/
def nextHeldCount (total : Nat) : Nat := total % 8

/-- `nhb`, the next held byte: the `nh` low bits of the value at the top of a byte, 0 when `nh = 0`. -/
def nextHeldByte (v nh : Nat) : BitVec 8 :=
  if nh = 0 then 0#8 else BitVec.ofNat 8 ((v &&& mask nh) <<< (8 - nh))

/-- `k = total >> 3`, the number of whole bytes produced. -/
def wholeBytes (total : Nat) : Nat := total >>> 3

/-- `word = (H << (8*k - 8)) | (v >> nh)`, used for `k >= 1`. -/
def justifiedWord (held k v nh : Nat) : Nat := (held <<< (8 * k - 8)) ||| (v >>> nh)

/-- The `k` low bytes of `word`, most significant first: byte `i` is `trunc_8(word >> (8*(k-1-i)))` (40_writer.md R62). -/
def bytesOfWord (k word : Nat) : List Byte :=
  (List.range k).map fun i => BitVec.ofNat 8 (word >>> (8 * (k - 1 - i)))

/-! ### The splice (41_splice.md R76) -/

/-- `D[0:p] ++ S ++ D[p:]`. -/
def splice (d e : List Byte) (p : Nat) : List Byte := d.take p ++ e ++ d.drop p

/-! ### The reader's counts (42_reader.md R82) -/

/-- `pos = 8*c - h`, the read position. -/
def Reader.pos (r : Reader) : Nat := 8 * r.cursor.toNat - r.nheld.toNat

/-- `left = 8*(N - c) + h`, the bits of the buffer not yet consumed. -/
def Reader.left (r : Reader) : Nat := 8 * (r.blen.toNat - r.cursor.toNat) + r.nheld.toNat

/-- `nb = ((rem - 1) >> 3) + 1`, the bytes to load for `rem >= 1` further bits. -/
def bytesToLoad (rem : Nat) : Nat := ((rem - 1) >>> 3) + 1

/-- `nh = (32 - rem) mod 8`, the bits left over of the last byte loaded. -/
def leftoverCount (rem : Nat) : Nat := (32 - rem) % 8

end Sys2Proof.Machine
end

