-- ==== Sys2Proof/Machine/Flags.lean ====
section
/-! DEFINITION. The engine has no condition codes, no carry or overflow flag and no predicate register (10_state.md
R26). What stands here are the conditions the spec names as functions of the state, and the one status bit, `FAULT.valid`. -/

namespace Sys2Proof.Machine

/-- A writer is byte-aligned when `nheld = 0` (10_state.md R26, 41_splice.md R75). -/
def Writer.aligned (w : Writer) : Bool := w.nheld == 0#3

/-- The number of pad bits to alignment, `(8 - nheld) mod 8` (10_state.md R26, 40_writer.md R65). -/
def Writer.padBits (w : Writer) : Nat := (8 - w.nheld.toNat) % 8

/-- The written bit count, `8 * len + nheld` (41_splice.md R75, 49_laws.md R96). -/
def Writer.bitCount (w : Writer) : Nat := 8 * w.len + w.nheld.toNat

/-- The engine is halted while `FAULT.valid = 1` (60_exceptions.md R112). -/
def State.halted (s : State) : Bool := s.fault.valid

end Sys2Proof.Machine
end

