-- ==== Sys2Proof/Machine/Memory.lean ====
section
/-! DEFINITION. The external byte memory `XMEM`: 2^32 bytes, total, read by the engine and written by the host
(20_memory.md R31, R44). A list of cells in one canonical form, so that equal memories are equal lists. -/

namespace Sys2Proof.Machine

/-- The number of bytes of `XMEM` (20_memory.md R31). -/
def xmemSize : Nat := 2 ^ 32

/-- The canonical form from address `lo` on: addresses strictly rising, all of `XMEM`, and no entry equal to what an
unlisted address reads as. -/
def Memory.wfFrom (lo : Nat) : Memory → Bool
  | [] => true
  | (a, b) :: m => decide (lo ≤ a) && decide (a < xmemSize) && decide (b ≠ Config.unlistedByte) && Memory.wfFrom (a + 1) m

/-- The canonical form of a memory. -/
def Memory.wf (m : Memory) : Bool := Memory.wfFrom 0 m

/-- `MemRead(XMEM, addr, 1)`: the byte at `addr` (20_memory.md R31). -/
def Memory.get : Memory → Nat → Byte
  | [], _ => Config.unlistedByte
  | (a, b) :: m, addr => if addr = a then b else Memory.get m addr

/-- A cell in front of a memory, left out when it holds what an unlisted address reads as. -/
def Memory.cons (a : Nat) (b : Byte) (m : Memory) : Memory :=
  if b = Config.unlistedByte then m else (a, b) :: m

/-- The host's write of the byte `b` at `addr` (20_memory.md R44). -/
def Memory.put : Memory → Nat → Byte → Memory
  | [], addr, b => Memory.cons addr b []
  | (a, c) :: m, addr, b =>
    if addr < a then Memory.cons addr b ((a, c) :: m)
    else if addr = a then Memory.cons addr b m
    else (a, c) :: Memory.put m addr b

/-- The big-endian word of `count` successive bytes from `addr` on, with `acc` above them: the loop
`word = (word << 8) | MemRead(XMEM, addr + i, 1)` of 42_reader.md R83. `none` when a byte lies at an address that does
not exist (log 6). -/
def Memory.load (m : Memory) (addr count acc : Nat) : Option Nat :=
  match count with
  | 0 => some acc
  | k + 1 =>
    if addr < xmemSize then m.load (addr + 1) k ((acc <<< 8) ||| (m.get addr).toNat)
    else none

end Sys2Proof.Machine
end

