-- ==== Sys2Proof/Machine/Ops.lean ====
section
/-! DEFINITION. The named operations every command is made of: responses, fault entry and reset, the actions of the host,
the selection and update of a context, and the frame common to all commands. -/

namespace Sys2Proof.Machine

/-! ### Causes and responses -/

/-- The code of a cause (60_exceptions.md R110). -/
def Cause.code : Cause → BitVec 8
  | .illegal => 1#8
  | .unit => 2#8
  | .width => 3#8
  | .value => 4#8
  | .overflow => 5#8
  | .index => 6#8
  | .self => 7#8
  | .unaligned => 8#8
  | .position => 9#8
  | .bind => 10#8
  | .overrun => 11#8

/-- `(OK, d)` (30_encoding.md R52). -/
def Response.completed (d : Word) : Response := { st := .ok, data := d }

/-- `(FAULT, cause)`: the data is `zext_32` of the cause code (30_encoding.md R52). -/
def Response.faulted (code : BitVec 8) : Response := { st := .fault, data := code.setWidth 32 }

/-- The 33 bits of a response on the response port: `st` at bit 32, `data` below it (30_encoding.md R52). -/
def Response.bits (r : Response) : BitVec 33 :=
  (match r.st with
    | .ok => 0#1
    | .fault => 1#1) ++ r.data

/-- The response `r` goes to the response port (30_encoding.md R45, R52). -/
def State.respond (s : State) (r : Response) : State := { s with trace := s.trace ++ [r] }

/-! ### Fault entry, the halted state, reset -/

/-- Fault entry, `raise F_X`: `FAULT.valid <- 1`, `FAULT.cause <- code(F_X)`, response `(FAULT, code(F_X))`, nothing
else (60_exceptions.md R111). There is no return from it but reset (R113). -/
def State.takeFault (s : State) (c : Cause) : State :=
  { s with fault := { valid := true, cause := c.code } }.respond (Response.faulted c.code)

/-- What a halted engine answers to every command: the recorded cause, with no change of state (60_exceptions.md R112). -/
def State.haltedReply (s : State) : State := s.respond (Response.faulted s.fault.cause)

/-- The effect of the reset input (70_reset_and_hazards.md R131): every context and `FAULT` take their reset values;
`XMEM` is not touched, and neither are the parameters nor what the host has seen or will do (log 4). -/
def State.applyReset (s : State) : State :=
  { s with
    writers := List.replicate s.writers.length Writer.empty
    readers := List.replicate s.readers.length Reader.unbound
    fault := FaultReg.clear }

/-! ### Actions of the host -/

/-- The host has taken its first action; `rest` is what it does next. -/
def State.withHost (s : State) (rest : List HostAction) : State := { s with host := rest }

/-- The host writes one byte of `XMEM` between two commands (20_memory.md R44). -/
def State.hostWrite (s : State) (addr : Word) (b : Byte) : State :=
  { s with xmem := s.xmem.put addr.toNat b }

/-! ### Contexts -/

/-- `NW` (00_scope.md R4, log 1). -/
def State.nw (s : State) : Nat := s.writers.length

/-- `NR` (00_scope.md R4, log 1). -/
def State.nr (s : State) : Nat := s.readers.length

/-- The writer context `W[u]` becomes `w` (00_scope.md section 7). -/
def State.setWriter (s : State) (u : Nat) (w : Writer) : State := { s with writers := s.writers.set u w }

/-- The reader context `R[u]` becomes `r` (00_scope.md section 7). -/
def State.setReader (s : State) (u : Nat) (r : Reader) : State := { s with readers := s.readers.set u r }

/-! ### The frame common to all commands -/

/-- What the pseudocode of a command comes to: it completes with a value, raises a cause, or leaves the model. -/
inductive Result (α : Type) where
  | done (a : α)
  | raise (c : Cause)
  | stop (f : Fault)
  deriving DecidableEq, Repr

/-- Go on with the value of a result that is done. -/
def Result.andThen {α β : Type} (x : Result α) (f : α → Result β) : Result β :=
  match x with
  | .done a => f a
  | .raise c => .raise c
  | .stop r => .stop r

/-- The state after a command that answers `(OK, d)`, `p` being the new contexts and `d` (30_encoding.md R52). -/
def State.finish (p : State × Word) : State := p.1.respond (Response.completed p.2)

/-- One command, given what its pseudocode comes to: the halted test first (60_exceptions.md R112, R114 step 0), then
completion with a response, or fault entry. -/
def State.command (s : State) (x : Result (State × Word)) : Host.Outcome State Fault Refusal :=
  if s.halted then .next s.haltedReply
  else match x with
    | .done p => .next (State.finish p)
    | .raise c => .next (s.takeFault c)
    | .stop f => .fault f

/-- The check `u < NW`, and the body on the writer context `W[u]` (60_exceptions.md R116, 40_writer.md R60). -/
def State.withWriter (s : State) (u : Nat) (body : Writer → Result (State × Word)) : Result (State × Word) :=
  match s.writers[u]? with
  | none => .raise .unit
  | some w => body w

/-- The check `u < NR`, and the body on the reader context `R[u]` (60_exceptions.md R116, 42_reader.md R80). -/
def State.withReader (s : State) (u : Nat) (body : Reader → Result (State × Word)) : Result (State × Word) :=
  match s.readers[u]? with
  | none => .raise .unit
  | some r => body r

/-- A command word that decodes to `illegal` (60_exceptions.md R115). -/
def execIllegal (s : State) : Host.Outcome State Fault Refusal := s.command (.raise .illegal)

end Sys2Proof.Machine
end

