-- ==== Sys2Proof/Machine/Reader.lean ====
section
/-! DEFINITION. The reader commands `RBIND` and `READ` (42_reader.md). -/

namespace Sys2Proof.Machine

/-- The pseudocode of `READ` on one reader context over the memory `x`: the reader after the command and the result
(42_reader.md R82, R83). `F_WIDTH` is tested first; `F_OVERRUN` before any load. -/
def Reader.take (r : Reader) (x : Memory) (n : Nat) : Result (Reader × Word) :=
  let h := r.nheld.toNat
  let rem := n - h
  let nb := bytesToLoad rem
  let nh := leftoverCount rem
  if 32 < n then .raise .width
  else if n ≤ h then
    .done ({ r with nheld := BitVec.ofNat 3 (h - n) },
      BitVec.ofNat 32 ((r.held.toNat >>> (h - n)) &&& mask n))
  else if r.blen.toNat < r.cursor.toNat + nb then .raise .overrun
  else match x.load (r.base.toNat + r.cursor.toNat) nb 0 with
    | none => .stop .outsideXmem
    | some word =>
      .done ({ r with
          cursor := BitVec.ofNat 32 (r.cursor.toNat + nb)
          held := BitVec.ofNat 8 word
          nheld := BitVec.ofNat 3 nh },
        BitVec.ofNat 32 (((r.held.toNat &&& mask h) <<< rem) ||| (word >>> nh)))

/-- `RBIND r<u>, <base>, <length>`: a fresh construction of reader `u`; it loads nothing (42_reader.md R81). The sum
of the check is exact (60_exceptions.md R124). -/
def execRbind (u : Nat) (base length : Word) (s : State) : Host.Outcome State Fault Refusal :=
  s.command (s.withReader u fun _ =>
    if xmemSize < base.toNat + length.toNat then .raise .bind
    else .done (s.setReader u (Reader.bound base length), 0#32))

/-- `READ r<u>, <n>` (42_reader.md R83). -/
def execRead (u n : Nat) (s : State) : Host.Outcome State Fault Refusal :=
  s.command (s.withReader u fun r =>
    (r.take s.xmem n).andThen fun p => .done (s.setReader u p.1, p.2))

end Sys2Proof.Machine
end

