-- ==== Sys2Proof/Machine/Lookahead.lean ====
section
/-! DEFINITION. The lookahead command `PREAD` (43_lookahead.md). -/

namespace Sys2Proof.Machine

/-- The pseudocode of `PREAD` on one reader context: the `READ` of `min(n, left)` bits on a copy that is discarded, its
result shifted left by the shortfall (43_lookahead.md R91). -/
def Reader.peek (r : Reader) (x : Memory) (n : Nat) : Result Word :=
  let m := min n r.left
  if 32 < n then .raise .width
  else (r.take x m).andThen fun p => .done (BitVec.ofNat 32 (p.2.toNat <<< (n - m)))

/-- `PREAD r<u>, <n>`: no net change of state (43_lookahead.md R91, R92). -/
def execPread (u n : Nat) (s : State) : Host.Outcome State Fault Refusal :=
  s.command (s.withReader u fun r => (r.peek s.xmem n).andThen fun d => .done (s, d))

end Sys2Proof.Machine
end

