-- ==== Sys2Proof/Machine/Splice.lean ====
section
/-! DEFINITION. The splice command `WINSERT` (41_splice.md). -/

namespace Sys2Proof.Machine

/-- `WINSERT w<u>, w<src>, <position>`: the buffer of `src` goes into the buffer of `u` before byte `position`; the
held bits of `u` and the whole of `src` stay (41_splice.md R76, R78). The checks in their order: `u` and `src` exist,
`F_SELF`, `F_UNALIGNED`, `F_POSITION`, `F_OVERFLOW` (60_exceptions.md R114). -/
def execWinsert (u src : Nat) (position : Word) (s : State) : Host.Outcome State Fault Refusal :=
  s.command (s.withWriter u fun d => s.withWriter src fun e =>
    if src = u then .raise .self
    else if !e.aligned then .raise .unaligned
    else if d.len < position.toNat then .raise .position
    else if s.wcap < d.len + e.len then .raise .overflow
    else .done (s.setWriter u { d with buf := splice d.buf e.buf position.toNat }, 0#32))

end Sys2Proof.Machine
end

