-- ==== Sys2Proof/Machine/Writer.lean ====
section
/-! DEFINITION. The writer commands `WRITE`, `WALIGN0`, `WALIGN1`, `WLEN`, `WBYTE`, `WCLEAR` (40_writer.md). -/

namespace Sys2Proof.Machine

/-- The pseudocode of `WRITE` on one writer context, its checks in their order: `F_WIDTH`, `F_VALUE`, `F_OVERFLOW`
(40_writer.md R61, R62; 60_exceptions.md R117 to R119). -/
def Writer.put (w : Writer) (wcap n v : Nat) : Result Writer :=
  let total := totalBits n w.nheld.toNat
  let nh := nextHeldCount total
  let nhb := nextHeldByte v nh
  let k := wholeBytes total
  if 32 < n then .raise .width
  else if v >>> n ≠ 0 then .raise .value
  else if total < 8 then
    .done { w with held := w.held ||| nhb, nheld := BitVec.ofNat 3 nh }
  else if wcap < w.len + k then .raise .overflow
  else
    .done { buf := w.buf ++ bytesOfWord k (justifiedWord w.held.toNat k v nh)
            held := nhb
            nheld := BitVec.ofNat 3 nh }

/-- The pseudocode of `WALIGN0` on one writer context (40_writer.md R64). -/
def Writer.alignZero (w : Writer) (wcap : Nat) : Result Writer :=
  if w.aligned then .done w
  else if wcap < w.len + 1 then .raise .overflow
  else .done { buf := w.buf ++ [w.held], held := 0#8, nheld := 0#3 }

/-- The pseudocode of `WALIGN1` on one writer context: `WRITE` of `m` one bits, `m` the bits needed to reach alignment
(40_writer.md R65). -/
def Writer.alignOne (w : Writer) (wcap : Nat) : Result Writer :=
  w.put wcap w.padBits (mask w.padBits)

/-- `WRITE w<u>, <n>, <value>` (40_writer.md R62). -/
def execWrite (u n : Nat) (value : Word) (s : State) : Host.Outcome State Fault Refusal :=
  s.command (s.withWriter u fun w =>
    (w.put s.wcap n value.toNat).andThen fun w' => .done (s.setWriter u w', 0#32))

/-- `WALIGN0 w<u>` (40_writer.md R64). -/
def execWalign0 (u : Nat) (s : State) : Host.Outcome State Fault Refusal :=
  s.command (s.withWriter u fun w =>
    (w.alignZero s.wcap).andThen fun w' => .done (s.setWriter u w', 0#32))

/-- `WALIGN1 w<u>` (40_writer.md R65). -/
def execWalign1 (u : Nat) (s : State) : Host.Outcome State Fault Refusal :=
  s.command (s.withWriter u fun w =>
    (w.alignOne s.wcap).andThen fun w' => .done (s.setWriter u w', 0#32))

/-- `WLEN w<u>`: the response is `len`; held bits are not counted (40_writer.md R66). -/
def execWlen (u : Nat) (s : State) : Host.Outcome State Fault Refusal :=
  s.command (s.withWriter u fun w => .done (s, BitVec.ofNat 32 w.len))

/-- `WBYTE w<u>, <index>`: the response is the byte at `index`, which must be below `len` (40_writer.md R67,
60_exceptions.md R120). -/
def execWbyte (u : Nat) (index : Word) (s : State) : Host.Outcome State Fault Refusal :=
  s.command (s.withWriter u fun w =>
    match w.buf[index.toNat]? with
    | none => .raise .index
    | some b => .done (s, b.setWidth 32))

/-- `WCLEAR w<u>`: the context takes its reset value; held bits are discarded (40_writer.md R68). -/
def execWclear (u : Nat) (s : State) : Host.Outcome State Fault Refusal :=
  s.command (s.withWriter u fun _ => .done (s.setWriter u Writer.empty, 0#32))

end Sys2Proof.Machine
end

