-- ==== Sys2Proof/Machine/Dispatch.lean ====
section
/-! DEFINITION. The meaning of every command, one arm per constructor of Instr. -/

namespace Sys2Proof.Machine

def exec (i : Instr) (s : State) : Host.Outcome State Fault Refusal :=
  match i with
  -- 40_writer.md
  | .write u n value => Sys2Proof.Machine.execWrite u n value s
  | .walign0 u => Sys2Proof.Machine.execWalign0 u s
  | .walign1 u => Sys2Proof.Machine.execWalign1 u s
  | .wlen u => Sys2Proof.Machine.execWlen u s
  | .wbyte u index => Sys2Proof.Machine.execWbyte u index s
  | .wclear u => Sys2Proof.Machine.execWclear u s
  -- 41_splice.md
  | .winsert u src position => Sys2Proof.Machine.execWinsert u src position s
  -- 42_reader.md
  | .rbind u base length => Sys2Proof.Machine.execRbind u base length s
  | .read u n => Sys2Proof.Machine.execRead u n s
  -- 43_lookahead.md
  | .pread u n => Sys2Proof.Machine.execPread u n s

end Sys2Proof.Machine
end

