-- ==== Sys2Proof/Machine/CommandPort.lean ====
section
/-! DEFINITION. What one action of the host makes the machine do: a command word is decoded and executed
(00_scope.md R5); between commands the host may write `XMEM` (20_memory.md R44) or drive reset
(70_reset_and_hazards.md R131). -/

namespace Sys2Proof.Machine

/-- The command word `c` is on the command port: decode it (30_encoding.md R56) and execute it, or raise `F_ILLEGAL`
(60_exceptions.md R115). -/
def runWord (c : CmdWord) (s : State) : Host.Outcome State Fault Refusal :=
  match decode c with
  | some i => exec i s
  | none => execIllegal s

/-- One action of the host. -/
def takeAction (a : HostAction) (s : State) : Host.Outcome State Fault Refusal :=
  match a with
  | .command c => runWord c s
  | .writeXmem addr b => .next (s.hostWrite addr b)
  | .reset => .next s.applyReset

/-- The host presents the command word `c` before anything else it will do (log 3). -/
def State.present (s : State) (c : CmdWord) : State := { s with host := .command c :: s.host }

end Sys2Proof.Machine
end

