-- ==== Sys2Proof/Machine/Step.lean ====
section
/-! DEFINITION. One step of the machine: the next action of the host. When the host does nothing more the run has ended
and the state stays as it is (70_reset_and_hazards.md R142, log 3). -/

namespace Sys2Proof.Machine

/-- One step: the first of the host's remaining actions. -/
def step (s : State) : Host.Outcome State Fault Refusal :=
  match s.host with
  | [] => .next s
  | a :: rest => takeAction a (s.withHost rest)

/-- The state in which the host presents the instruction of the bits `w` next; every bit above `nbits` is 0
(log 3, log 12). -/
def State.withFetchWord (s : State) (nbits w : Nat) : State :=
  s.present (BitVec.ofNat 96 (w % 2 ^ nbits))

end Sys2Proof.Machine
end

