-- ==== Sys2Proof/Machine/Streams.lean ====
section
/-! DEFINITION. Bit strings, most significant bit first, and what the contexts stand for as bit strings: the abstraction
functions of 49_laws.md R96 and R99. No command computes with them; the claims do. -/

namespace Sys2Proof.Machine

/-- `be_n(v)`: the bits `v[n-1], ..., v[0]` (00_scope.md section 7). -/
def be : Nat → Nat → List Bool
  | 0, _ => []
  | n + 1, v => v.testBit n :: be n v

/-- `val(s)`: the number whose bits, most significant first, are `s` (00_scope.md section 7). -/
def val (bs : List Bool) : Nat := bs.foldl (fun acc b => 2 * acc + b.toNat) 0

/-- `bits(seq)`: the bits of a byte sequence (00_scope.md section 7, 20_memory.md R33). -/
def bitsOf (bytes : List Byte) : List Bool := bytes.flatMap fun b => be 8 b.toNat

/-- The logical bit string of a writer: its buffer, then the `nheld` high bits of `held` (49_laws.md R96). -/
def Writer.wbits (w : Writer) : List Bool := bitsOf w.buf ++ (be 8 w.held.toNat).take w.nheld.toNat

/-- Byte `k` of the buffer a reader is bound to (10_state.md R18). -/
def Reader.byteAt (r : Reader) (x : Memory) (k : Nat) : Byte := x.get (r.base.toNat + k)

/-- The stream of a reader: the bits of the `blen` bytes it is bound to (49_laws.md R99). -/
def Reader.stream (r : Reader) (x : Memory) : List Bool :=
  bitsOf ((List.range r.blen.toNat).map fun k => r.byteAt x k)

/-- `stream[pos : pos + n]`, the next `n` bits (fewer at the end of the stream). -/
def Reader.nextBits (r : Reader) (x : Memory) (n : Nat) : List Bool := ((r.stream x).drop r.pos).take n

/-- `(stream ++ zeros)[pos : pos + n]`, the stream extended by an endless run of zero bits (49_laws.md R102). -/
def Reader.nextBitsZeroFilled (r : Reader) (x : Memory) (n : Nat) : List Bool :=
  ((r.stream x ++ List.replicate n false).drop r.pos).take n

/-- The big-endian number of the bytes `c`, ..., `c + count - 1` of the bound buffer, first byte most significant
(20_memory.md R34). -/
def Reader.wordAt (r : Reader) (x : Memory) (c count : Nat) : Nat :=
  (List.range count).foldl (fun acc i => 256 * acc + (r.byteAt x (c + i)).toNat) 0

end Sys2Proof.Machine
end

