-- ==== Sys2Proof/Safety.lean ====
section
/-! DEFINITION. The terms the claims use: the invariants of 10_state.md R15 and R23, what it is for a command to raise a
cause, which contexts a command names, and a run of the machine under a script of the host. -/

namespace Sys2Proof.Machine

/-! ### Invariants -/

/-- The writer invariant: the `8 - nheld` low bits of `held` are zero, and the buffer is within its capacity
(10_state.md R15). -/
abbrev Writer.Inv (w : Writer) (wcap : Nat) : Prop :=
  w.held &&& ((0xFF#8) >>> w.nheld.toNat) = 0#8 ∧ w.buf.length ≤ wcap

/-- The reader invariant, clauses (a) and (b), and the range of the binding (10_state.md R18, R23). -/
abbrev Reader.Inv (r : Reader) : Prop :=
  r.base.toNat + r.blen.toNat ≤ 2 ^ 32 ∧ r.cursor.toNat ≤ r.blen.toNat ∧ (r.nheld ≠ 0#3 → 1 ≤ r.cursor.toNat)

/-- The reader invariant, clause (d), while the host has not rewritten the byte: `held` is the last byte loaded
(10_state.md R23, R27). -/
abbrev Reader.Fresh (r : Reader) (x : Memory) : Prop :=
  r.nheld ≠ 0#3 → r.held = x.get (r.base.toNat + r.cursor.toNat - 1)

/-- `FAULT` is clear or records one of the eleven causes (10_state.md R25, 93_implementation_defined.md U18). -/
abbrev FaultReg.Inv (f : FaultReg) : Prop :=
  (f.valid = false → f.cause = 0#8) ∧ (f.valid = true → 1 ≤ f.cause.toNat ∧ f.cause.toNat ≤ 11)

/-- What every reachable state satisfies. -/
abbrev State.Inv (s : State) : Prop :=
  Params.InRange { nw := s.writers.length, nr := s.readers.length, wcap := s.wcap } ∧
  (∀ w ∈ s.writers, w.Inv s.wcap) ∧
  (∀ r ∈ s.readers, r.Inv) ∧
  s.fault.Inv ∧
  s.xmem.wf = true

/-! ### What a command does -/

/-- The command raises the cause: `FAULT` and the response are the only changes (60_exceptions.md R111). -/
def Raises (i : Instr) (s : State) (c : Cause) : Prop :=
  exec i s = .next { s with
    fault := { valid := true, cause := c.code }
    trace := s.trace ++ [{ st := .fault, data := c.code.setWidth 32 }] }

/-- The writer context a command may write (10_state.md R10). -/
def writerWritten : Instr → Option Nat
  | .write u _ _ => some u
  | .walign0 u => some u
  | .walign1 u => some u
  | .wclear u => some u
  | .winsert u _ _ => some u
  | .wlen _ => none
  | .wbyte _ _ => none
  | .rbind _ _ _ => none
  | .read _ _ => none
  | .pread _ _ => none

/-- The reader context a command may write (10_state.md R10). -/
def readerWritten : Instr → Option Nat
  | .rbind u _ _ => some u
  | .read u _ => some u
  | .write _ _ _ => none
  | .walign0 _ => none
  | .walign1 _ => none
  | .wclear _ => none
  | .winsert _ _ _ => none
  | .wlen _ => none
  | .wbyte _ _ => none
  | .pread _ _ => none

/-- The writer contexts a command names (00_scope.md R7). -/
def writersNamed : Instr → List Nat
  | .write u _ _ => [u]
  | .walign0 u => [u]
  | .walign1 u => [u]
  | .wclear u => [u]
  | .winsert u src _ => [u, src]
  | .wlen u => [u]
  | .wbyte u _ => [u]
  | .rbind _ _ _ => []
  | .read _ _ => []
  | .pread _ _ => []

/-- The reader contexts a command names (00_scope.md R7). -/
def readersNamed : Instr → List Nat
  | .rbind u _ _ => [u]
  | .read u _ => [u]
  | .pread u _ => [u]
  | .write _ _ _ => []
  | .walign0 _ => []
  | .walign1 _ => []
  | .wclear _ => []
  | .winsert _ _ _ => []
  | .wlen _ => []
  | .wbyte _ _ => []

/-- The result data an `OK` response may carry, per command (30_encoding.md R52). -/
def OkData (i : Instr) (s : State) (d : Word) : Prop :=
  match i with
  | .write _ _ _ => d = 0#32
  | .walign0 _ => d = 0#32
  | .walign1 _ => d = 0#32
  | .wclear _ => d = 0#32
  | .winsert _ _ _ => d = 0#32
  | .rbind _ _ _ => d = 0#32
  | .wlen u => ∃ w, s.writers[u]? = some w ∧ d.toNat = w.buf.length
  | .wbyte u index => ∃ w b, s.writers[u]? = some w ∧ w.buf[index.toNat]? = some b ∧ d.toNat = b.toNat
  | .read _ n => d.toNat < 2 ^ n
  | .pread _ n => d.toNat < 2 ^ n

/-- Two states look the same to a command: the writer contexts it names, the binding and the bound bytes of the reader
contexts it names, `WCAP` and `FAULT` (00_scope.md R7, 20_memory.md R31, R39). -/
def SameFor (i : Instr) (s t : State) : Prop :=
  s.fault = t.fault ∧ s.wcap = t.wcap ∧
  (∀ u ∈ writersNamed i, s.writers[u]? = t.writers[u]?) ∧
  (∀ u ∈ readersNamed i, s.readers[u]? = t.readers[u]? ∧
    ∀ r, s.readers[u]? = some r → ∀ k, k < r.blen.toNat → r.byteAt s.xmem k = r.byteAt t.xmem k)

/-! ### Counting bits (49_laws.md R104) -/

/-- The bits a completed command adds to the writer `w` it writes: the width of a `WRITE`, the pad bits of an align
command, 0 for the others (49_laws.md R104). -/
def bitsAdded : Instr → Writer → Nat
  | .write _ n _, _ => n
  | .walign0 _, w => w.padBits
  | .walign1 _, w => w.padBits
  | .wlen _, _ => 0
  | .wbyte _ _, _ => 0
  | .wclear _, _ => 0
  | .winsert _ _ _, _ => 0
  | .rbind _ _ _, _ => 0
  | .read _ _, _ => 0
  | .pread _ _, _ => 0

/-- The command is a `WRITE` or an align command on writer `u` (49_laws.md R104). -/
def appendsTo (u : Nat) : Instr → Bool
  | .write x _ _ => x == u
  | .walign0 x => x == u
  | .walign1 x => x == u
  | .wlen _ => false
  | .wbyte _ _ => false
  | .wclear _ => false
  | .winsert _ _ _ => false
  | .rbind _ _ _ => false
  | .read _ _ => false
  | .pread _ _ => false

/-- The sum of the bits a sequence of commands adds to writer `u`, each counted in the state it meets; with it the
state after the sequence. `none` when a command does not complete with an `OK` response. -/
def tally (u : Nat) : List Instr → State → Option (State × Nat)
  | [], s => some (s, 0)
  | i :: rest, s =>
    match exec i s with
    | .next t =>
      if t.halted then none
      else match s.writers[u]?, tally u rest t with
        | some w, some (t', n) => some (t', bitsAdded i w + n)
        | _, _ => none
    | .fault _ => none
    | .refused _ => none

/-! ### Runs (70_reset_and_hazards.md R142) -/

/-- The machine runs a script of the host to its end, one action a step. -/
def play (script : List HostAction) (s : State) : Host.Outcome State Fault Refusal :=
  Sys2Proof.core.run script.length { s with host := script }

/-- The host presents a sequence of commands. -/
def presents (cmds : List Instr) : List HostAction := cmds.map fun i => .command (encode i)

/-- The host stores bytes in `XMEM` from address `base` on (70_reset_and_hazards.md R133). -/
def stores (base : Nat) : List Byte → List HostAction
  | [] => []
  | b :: rest => .writeXmem (BitVec.ofNat 32 base) b :: stores (base + 1) rest

/-- The action presents a command word. -/
def HostAction.isCommand : HostAction → Bool
  | .command _ => true
  | .writeXmem _ _ => false
  | .reset => false

end Sys2Proof.Machine
end

