-- ==== Sys2Proof/Certificates/Slice0/Obligations.lean ====
section
/-! DEFINITION. The statements for the provers. Each docstring names the rule of spec/ it formalises. -/

open Sys2Proof Sys2Proof.Machine

/-! ### Encoding and decoding (30_encoding.md) -/

/-- Command words written out from the fields of R46 and the opcodes of R49 decode to the commands they stand for;
the words are those of 95_test_vectors.md. -/
def Obligations.WrittenOutWordsDecode : Prop :=
  decode 0x010003000000000500000000#96 = some (.write 0 3 5#32) ∧
  decode 0x020000000000000000000000#96 = some (.walign0 0) ∧
  decode 0x030100000000000000000000#96 = some (.walign1 1) ∧
  decode 0x04FF00000000000000000000#96 = some (.wlen 255) ∧
  decode 0x05010000FFFFFFFF00000000#96 = some (.wbyte 1 0xFFFFFFFF#32) ∧
  decode 0x060100000000000000000000#96 = some (.wclear 1) ∧
  decode 0x070000010000000700000000#96 = some (.winsert 0 1 7#32) ∧
  decode 0x100000000000100000000002#96 = some (.rbind 0 0x1000#32 2#32) ∧
  decode 0x110108000000000000000000#96 = some (.read 1 8) ∧
  decode 0x120021000000000000000000#96 = some (.pread 0 33) ∧
  decode 0x000000000000000000000000#96 = none ∧
  decode 0x010003010000000500000000#96 = none

/-- Decoding the encoding of a well-formed command gives the command back (R46, R50, R56). -/
def Obligations.DecodeOfEncode : Prop :=
  ∀ i : Instr, i.WellFormed → decode (encode i) = some i

/-- R50: a legal word is the encoding of the command it decodes to, with zero in every field the command does not use,
so two different words never decode to the same command. -/
def Obligations.EncodeOfDecode : Prop :=
  (∀ (c : CmdWord) (i : Instr), decode c = some i → i.WellFormed ∧ encode i = c) ∧
  (∀ (c d : CmdWord) (i : Instr), decode c = some i → decode d = some i → c = d)

/-- R49: a word is the command of a row exactly when `C & mask = match`; its operands are the fields R46 gives the row;
at most one row matches. -/
def Obligations.OpcodeMapDecides : Prop :=
  (∀ c : CmdWord, c &&& 0xFF0000FF00000000FFFFFFFF#96 = 0x010000000000000000000000#96 ↔
    decode c = some (.write (c.extractLsb' 80 8).toNat (c.extractLsb' 72 8).toNat (c.extractLsb' 32 32))) ∧
  (∀ c : CmdWord, c &&& 0xFF00FFFFFFFFFFFFFFFFFFFF#96 = 0x020000000000000000000000#96 ↔
    decode c = some (.walign0 (c.extractLsb' 80 8).toNat)) ∧
  (∀ c : CmdWord, c &&& 0xFF00FFFFFFFFFFFFFFFFFFFF#96 = 0x030000000000000000000000#96 ↔
    decode c = some (.walign1 (c.extractLsb' 80 8).toNat)) ∧
  (∀ c : CmdWord, c &&& 0xFF00FFFFFFFFFFFFFFFFFFFF#96 = 0x040000000000000000000000#96 ↔
    decode c = some (.wlen (c.extractLsb' 80 8).toNat)) ∧
  (∀ c : CmdWord, c &&& 0xFF00FFFF00000000FFFFFFFF#96 = 0x050000000000000000000000#96 ↔
    decode c = some (.wbyte (c.extractLsb' 80 8).toNat (c.extractLsb' 32 32))) ∧
  (∀ c : CmdWord, c &&& 0xFF00FFFFFFFFFFFFFFFFFFFF#96 = 0x060000000000000000000000#96 ↔
    decode c = some (.wclear (c.extractLsb' 80 8).toNat)) ∧
  (∀ c : CmdWord, c &&& 0xFF00FF0000000000FFFFFFFF#96 = 0x070000000000000000000000#96 ↔
    decode c = some (.winsert (c.extractLsb' 80 8).toNat (c.extractLsb' 64 8).toNat (c.extractLsb' 32 32))) ∧
  (∀ c : CmdWord, c &&& 0xFF00FFFF0000000000000000#96 = 0x100000000000000000000000#96 ↔
    decode c = some (.rbind (c.extractLsb' 80 8).toNat (c.extractLsb' 32 32) (c.extractLsb' 0 32))) ∧
  (∀ c : CmdWord, c &&& 0xFF0000FFFFFFFFFFFFFFFFFF#96 = 0x110000000000000000000000#96 ↔
    decode c = some (.read (c.extractLsb' 80 8).toNat (c.extractLsb' 72 8).toNat)) ∧
  (∀ c : CmdWord, c &&& 0xFF0000FFFFFFFFFFFFFFFFFF#96 = 0x120000000000000000000000#96 ↔
    decode c = some (.pread (c.extractLsb' 80 8).toNat (c.extractLsb' 72 8).toNat)) ∧
  (∀ c : CmdWord, ∀ r ∈ opcodeRows, ∀ r' ∈ opcodeRows, r.Matches c → r'.Matches c → r = r')

/-- R51, R115: a word that matches no row of the opcode map is illegal, every opcode outside the ten among them, and
executing it raises `F_ILLEGAL`. -/
def Obligations.IllegalWordsFault : Prop :=
  (∀ c : CmdWord, decode c = none ↔ ∀ r ∈ opcodeRows, ¬ r.Matches c) ∧
  (∀ c : CmdWord,
    c.extractLsb' 88 8 ∉ [0x01#8, 0x02#8, 0x03#8, 0x04#8, 0x05#8, 0x06#8, 0x07#8, 0x10#8, 0x11#8, 0x12#8] →
    decode c = none) ∧
  decode 0#96 = none ∧
  (∀ (s : State) (c : CmdWord), s.fault.valid = false → decode c = none →
    runWord c s = .next { s with
      fault := { valid := true, cause := 1#8 }
      trace := s.trace ++ [{ st := .fault, data := 1#32 }] })

/-! ### The step, the host and reset -/

/-- When the host's next action presents a word, the step runs it: `exec i` when it decodes to `i`, the fault of R115
otherwise, with that action taken; the word `withFetchWord` places is the one the next step runs (R5, R45, R56). That the
host's actions are a list in the state, first action first, is the model's choice (log 3). -/
def Obligations.StepRunsTheDecodedCommand : Prop :=
  (∀ (s : State) (c : CmdWord) (rest : List HostAction) (i : Instr),
    s.host = .command c :: rest → decode c = some i → step s = exec i { s with host := rest }) ∧
  (∀ (s : State) (c : CmdWord) (rest : List HostAction),
    s.host = .command c :: rest → step s = runWord c { s with host := rest }) ∧
  (∀ (s : State) (c : CmdWord) (i : Instr),
    decode c = some i → step (s.withFetchWord 96 c.toNat) = exec i s)

/-- R44, R40: a host write of `XMEM` changes the byte at its address and nothing else, and a later read of a byte
returns the last value written. That the engine idles when the host does nothing more is the model's choice (log 3). -/
def Obligations.HostWriteChangesOneByte : Prop :=
  (∀ (s : State) (addr : Word) (b : Byte) (rest : List HostAction),
    s.host = .writeXmem addr b :: rest → s.xmem.wf = true →
    ∃ x : Memory, step s = .next { s with host := rest, xmem := x } ∧ x.wf = true ∧
      ∀ a : Nat, x.get a = if a = addr.toNat then b else s.xmem.get a) ∧
  (∀ s : State, s.host = [] → step s = .next s)

/-- R131: the reset input gives every context and `FAULT` the values of R28 and does not touch `XMEM`; no other step
clears `FAULT`. That it keeps the trace and the host's remaining actions is the model's choice (log 4). -/
def Obligations.ResetInputEffect : Prop :=
  (∀ (s : State) (rest : List HostAction), s.host = .reset :: rest →
    step s = .next {
      writers := s.writers.map fun _ => { buf := [], held := 0#8, nheld := 0#3 }
      readers := s.readers.map fun _ => { base := 0#32, blen := 0#32, cursor := 0#32, held := 0#8, nheld := 0#3 }
      fault := { valid := false, cause := 0#8 }
      xmem := s.xmem
      wcap := s.wcap
      host := rest
      trace := s.trace }) ∧
  (∀ s t : State, s.fault.valid = true → step s = .next t → (∀ rest, s.host ≠ .reset :: rest) → t.fault = s.fault)

/-- R28: the values after reset, for every parameter and every content of `XMEM`. -/
def Obligations.ResetStateValues : Prop :=
  ∀ (p : Params) (x : Memory),
    (State.resetWith p x).writers.length = p.nw ∧
    (State.resetWith p x).readers.length = p.nr ∧
    (∀ (i : Nat) (w : Writer), (State.resetWith p x).writers[i]? = some w →
      w.len = 0 ∧ w.held = 0#8 ∧ w.nheld = 0#3 ∧ w.buf = []) ∧
    (∀ (j : Nat) (r : Reader), (State.resetWith p x).readers[j]? = some r →
      r.base = 0#32 ∧ r.blen = 0#32 ∧ r.cursor = 0#32 ∧ r.nheld = 0#3 ∧ r.held = 0#8) ∧
    (State.resetWith p x).fault.valid = false ∧
    (State.resetWith p x).fault.cause = 0#8 ∧
    (State.resetWith p x).xmem = x

/-- The state after reset satisfies the invariant. The parameters and the empty memory of `State.reset` are the
model's choice (logs 1, 2); the first clause holds for every choice. -/
def Obligations.ResetSatisfiesInvariant : Prop :=
  (∀ (p : Params) (x : Memory), p.InRange → x.wf = true → (State.resetWith p x).Inv) ∧ State.reset.Inv

/-! ### Faults (60_exceptions.md) -/

/-- R110: the codes of the eleven causes. -/
def Obligations.CauseCodes : Prop :=
  Cause.illegal.code = 1#8 ∧ Cause.unit.code = 2#8 ∧ Cause.width.code = 3#8 ∧ Cause.value.code = 4#8 ∧
  Cause.overflow.code = 5#8 ∧ Cause.index.code = 6#8 ∧ Cause.self.code = 7#8 ∧ Cause.unaligned.code = 8#8 ∧
  Cause.position.code = 9#8 ∧ Cause.bind.code = 10#8 ∧ Cause.overrun.code = 11#8

/-- R111: a command that faults, of a legal or of an illegal word, sets `FAULT` and answers `(FAULT, code)`, and changes
nothing else; the engine is then halted. -/
def Obligations.FaultEntryChangesOnlyFault : Prop :=
  (∀ (i : Instr) (s t : State),
    s.fault.valid = false → exec i s = .next t → t.fault.valid = true →
    ∃ c : Cause, t = { s with
      fault := { valid := true, cause := c.code }
      trace := s.trace ++ [{ st := .fault, data := c.code.setWidth 32 }] }) ∧
  (∀ (w : CmdWord) (s t : State),
    s.fault.valid = false → runWord w s = .next t → t.fault.valid = true →
    ∃ c : Cause, t = { s with
      fault := { valid := true, cause := c.code }
      trace := s.trace ++ [{ st := .fault, data := c.code.setWidth 32 }] })

/-- R112: while `FAULT.valid = 1` every command, legal or not, on whatever context, answers the recorded cause and changes
no state. -/
def Obligations.HaltedEngineAnswersTheCause : Prop :=
  (∀ (i : Instr) (s : State), s.fault.valid = true →
    exec i s = .next { s with trace := s.trace ++ [{ st := .fault, data := s.fault.cause.setWidth 32 }] }) ∧
  (∀ (c : CmdWord) (s : State), s.fault.valid = true →
    runWord c s = .next { s with trace := s.trace ++ [{ st := .fault, data := s.fault.cause.setWidth 32 }] })

/-- R113: after a fault no sequence of commands and host writes clears `FAULT`, produces an `OK` response or changes a
context. That `play` runs the sequence as a list the state holds is the model's choice (log 3). -/
def Obligations.FaultIsKeptUntilReset : Prop :=
  ∀ (script : List HostAction) (s t : State),
    s.fault.valid = true → HostAction.reset ∉ script → play script s = .next t →
    t.fault = s.fault ∧ t.writers = s.writers ∧ t.readers = s.readers ∧
    t.trace = s.trace ++
      List.replicate (script.countP HostAction.isCommand) { st := .fault, data := s.fault.cause.setWidth 32 }

/-- R116: a command that names a context that does not exist raises `F_UNIT`; `s` is tested for `WINSERT` too. -/
def Obligations.MissingContextFaults : Prop :=
  ∀ s : State, s.fault.valid = false →
    (∀ u : Nat, s.writers.length ≤ u →
      (∀ (n : Nat) (v : Word), Raises (.write u n v) s .unit) ∧
      Raises (.walign0 u) s .unit ∧ Raises (.walign1 u) s .unit ∧ Raises (.wlen u) s .unit ∧
      (∀ k : Word, Raises (.wbyte u k) s .unit) ∧ Raises (.wclear u) s .unit ∧
      (∀ (src : Nat) (p : Word), Raises (.winsert u src p) s .unit)) ∧
    (∀ (u src : Nat) (p : Word), s.writers.length ≤ src → Raises (.winsert u src p) s .unit) ∧
    (∀ u : Nat, s.readers.length ≤ u →
      (∀ base length : Word, Raises (.rbind u base length) s .unit) ∧
      (∀ n : Nat, Raises (.read u n) s .unit) ∧ (∀ n : Nat, Raises (.pread u n) s .unit))

/-- R117: `WRITE`, `READ` and `PREAD` raise `F_WIDTH` exactly when `n > 32`; `n = 0` and `n = 32` are legal. -/
def Obligations.WidthFault : Prop :=
  ∀ s : State, s.fault.valid = false →
    (∀ (u n : Nat) (v : Word), u < s.writers.length → (Raises (.write u n v) s .width ↔ 32 < n)) ∧
    (∀ u n : Nat, u < s.readers.length → (Raises (.read u n) s .width ↔ 32 < n)) ∧
    (∀ u n : Nat, u < s.readers.length → (Raises (.pread u n) s .width ↔ 32 < n))

/-- R118: `WRITE` raises `F_VALUE` exactly when `value` has a bit at position `n` or above (and the width is legal). -/
def Obligations.ValueFault : Prop :=
  ∀ (s : State) (u n : Nat) (v : Word), s.fault.valid = false → u < s.writers.length →
    (Raises (.write u n v) s .value ↔ n ≤ 32 ∧ ∃ b, n ≤ b ∧ v.toNat.testBit b = true)

/-- R119: the commands that append raise `F_OVERFLOW` exactly when the bytes they would add do not fit; a command that
adds no byte never raises it. -/
def Obligations.OverflowFault : Prop :=
  ∀ (s : State) (u : Nat) (w : Writer), s.fault.valid = false → s.writers[u]? = some w →
    (∀ (n : Nat) (v : Word), Raises (.write u n v) s .overflow ↔
      n ≤ 32 ∧ v.toNat < 2 ^ n ∧ 8 ≤ n + w.nheld.toNat ∧ s.wcap < w.len + (n + w.nheld.toNat) / 8) ∧
    (Raises (.walign0 u) s .overflow ↔ w.nheld ≠ 0#3 ∧ s.wcap < w.len + 1) ∧
    (Raises (.walign1 u) s .overflow ↔ w.nheld ≠ 0#3 ∧ s.wcap < w.len + 1) ∧
    (∀ (src : Nat) (e : Writer) (p : Word), s.writers[src]? = some e →
      (Raises (.winsert u src p) s .overflow ↔
        src ≠ u ∧ e.nheld = 0#3 ∧ p.toNat ≤ w.len ∧ s.wcap < w.len + e.len)) ∧
    (∀ (src : Nat) (e : Writer) (p : Word), s.writers[src]? = some e → e.len = 0 → w.len ≤ s.wcap →
      ¬ Raises (.winsert u src p) s .overflow)

/-- R120: `WBYTE` raises `F_INDEX` exactly when the index is not below `len`. -/
def Obligations.IndexFault : Prop :=
  ∀ (s : State) (u : Nat) (w : Writer) (k : Word), s.fault.valid = false → s.writers[u]? = some w →
    (Raises (.wbyte u k) s .index ↔ w.len ≤ k.toNat)

/-- R121 to R123: the first three checks of `WINSERT`, in the order of R114. -/
def Obligations.SpliceChecks : Prop :=
  ∀ (s : State) (u src : Nat) (d e : Writer) (p : Word),
    s.fault.valid = false → s.writers[u]? = some d → s.writers[src]? = some e →
    (Raises (.winsert u src p) s .self ↔ src = u) ∧
    (Raises (.winsert u src p) s .unaligned ↔ src ≠ u ∧ e.nheld ≠ 0#3) ∧
    (Raises (.winsert u src p) s .position ↔ src ≠ u ∧ e.nheld = 0#3 ∧ d.len < p.toNat)

/-- R124: `RBIND` raises `F_BIND` exactly when `base + length > 2^32`. -/
def Obligations.BindFault : Prop :=
  ∀ (s : State) (u : Nat) (base length : Word), s.fault.valid = false → u < s.readers.length →
    (Raises (.rbind u base length) s .bind ↔ 2 ^ 32 < base.toNat + length.toNat)

/-- R125: `READ` raises `F_OVERRUN` exactly when more bits are asked than the bound buffer has left, equivalently when it
would load a byte at or beyond index `blen`; `PREAD` never raises it. -/
def Obligations.OverrunFault : Prop :=
  ∀ (s : State) (u n : Nat) (r : Reader), s.fault.valid = false → s.readers[u]? = some r →
    r.cursor.toNat ≤ r.blen.toNat →
    (Raises (.read u n) s .overrun ↔ n ≤ 32 ∧ 8 * (r.blen.toNat - r.cursor.toNat) + r.nheld.toNat < n) ∧
    (Raises (.read u n) s .overrun ↔ n ≤ 32 ∧ r.nheld.toNat < n ∧
      r.blen.toNat < r.cursor.toNat + (n - r.nheld.toNat + 7) / 8) ∧
    ¬ Raises (.pread u n) s .overrun

/-! ### Responses and frames -/

/-- R52: every command produces one response: `OK` exactly when the engine is not halted after it, the cause code with
`FAULT`, and with `OK` the result of the command; bit 32 is the status and bits 31..0 the data. -/
def Obligations.OneResponsePerCommand : Prop :=
  (∀ (i : Instr) (s t : State), s.Inv → exec i s = .next t →
    ∃ r : Response, t.trace = s.trace ++ [r] ∧
      (r.st = .ok ↔ t.fault.valid = false) ∧
      (r.st = .fault → r.data = t.fault.cause.setWidth 32) ∧
      (r.st = .ok → OkData i s r.data)) ∧
  (∀ r : Response, r.bits.getLsbD 32 = decide (r.st = .fault) ∧ r.bits.setWidth 32 = r.data)

/-- R7, R10, R17: what a command leaves unchanged when it answers a next state, with or without a fault: every byte of
`XMEM`, the host's actions, the parameters, and every context but the one it may write; within that one, `base` and
`blen` but for `RBIND`, and the held bits of a `WINSERT` destination. -/
def Obligations.FrameOfEveryCommand : Prop :=
  ∀ (i : Instr) (s t : State), exec i s = .next t →
    (∀ a : Nat, t.xmem.get a = s.xmem.get a) ∧ t.xmem = s.xmem ∧
    t.host = s.host ∧ t.wcap = s.wcap ∧
    t.writers.length = s.writers.length ∧ t.readers.length = s.readers.length ∧
    (∀ j : Nat, writerWritten i ≠ some j → t.writers[j]? = s.writers[j]?) ∧
    (∀ j : Nat, readerWritten i ≠ some j → t.readers[j]? = s.readers[j]?) ∧
    (∀ (j n : Nat) (r r' : Reader), i = .read j n → s.readers[j]? = some r → t.readers[j]? = some r' →
      r'.base = r.base ∧ r'.blen = r.blen) ∧
    (∀ (j src : Nat) (p : Word) (w w' : Writer), i = .winsert j src p → s.writers[j]? = some w →
      t.writers[j]? = some w' → w'.held = w.held ∧ w'.nheld = w.nheld)

/-- R7, R31, R39: contexts share nothing. Two states that agree on what a command names (its contexts, the bytes its
readers are bound to, `WCAP`, `FAULT`) give the same response, the same `FAULT` and the same named contexts, whatever
the rest of the two states is. -/
def Obligations.CommandsSeeOnlyTheirContexts : Prop :=
  ∀ (i : Instr) (s t s' : State), SameFor i s t → exec i s = .next s' →
    ∃ t' : State, exec i t = .next t' ∧ t'.fault = s'.fault ∧ t'.trace.getLast? = s'.trace.getLast? ∧
      (∀ u ∈ writersNamed i, t'.writers[u]? = s'.writers[u]?) ∧
      (∀ u ∈ readersNamed i, t'.readers[u]? = s'.readers[u]?)

/-- R27, R44: what the host does to `XMEM` after a byte was loaded does not reach the held bits: a `READ` served from
`held` gives the same response and the same reader over every memory. -/
def Obligations.HeldBitsAreNotRefreshed : Prop :=
  ∀ (s : State) (u n : Nat) (r : Reader) (x : Memory),
    s.fault.valid = false → s.readers[u]? = some r → n ≤ r.nheld.toNat →
    ∃ (t : State) (d : Word),
      exec (.read u n) s = .next { t with trace := s.trace ++ [{ st := .ok, data := d }] } ∧
      exec (.read u n) { s with xmem := x } =
        .next { t with xmem := x, trace := s.trace ++ [{ st := .ok, data := d }] }

/-! ### Writer commands (40_writer.md) -/

/-- R62: `WRITE`. The checks in their order; when they pass, the bytes of the held and new bits are appended, most
significant first, and the bits left over are held, left-justified. Every earlier byte of the buffer stays. -/
def Obligations.WriteResult : Prop :=
  ∀ (s : State) (u n : Nat) (v : Word) (w : Writer),
    s.fault.valid = false → s.writers[u]? = some w → w.Inv s.wcap →
    (32 < n → Raises (.write u n v) s .width) ∧
    (n ≤ 32 → 2 ^ n ≤ v.toNat → Raises (.write u n v) s .value) ∧
    (n ≤ 32 → v.toNat < 2 ^ n → 8 ≤ n + w.nheld.toNat → s.wcap < w.len + (n + w.nheld.toNat) / 8 →
      Raises (.write u n v) s .overflow) ∧
    (n ≤ 32 → v.toNat < 2 ^ n → w.len + (n + w.nheld.toNat) / 8 ≤ s.wcap →
      ∃ w' : Writer,
        exec (.write u n v) s = .next { s with
          writers := s.writers.set u w'
          trace := s.trace ++ [{ st := .ok, data := 0#32 }] } ∧
        w'.nheld.toNat = (n + w.nheld.toNat) % 8 ∧
        w'.len = w.len + (n + w.nheld.toNat) / 8 ∧
        (∀ k, k < w.len → w'.buf[k]? = w.buf[k]?) ∧
        (n + w.nheld.toNat < 8 →
          w'.held.toNat = w.held.toNat + v.toNat * 2 ^ (8 - w.nheld.toNat - n)) ∧
        (8 ≤ n + w.nheld.toNat →
          w'.held.toNat = v.toNat % 2 ^ ((n + w.nheld.toNat) % 8) * 2 ^ (8 - (n + w.nheld.toNat) % 8) % 256 ∧
          ∀ i, i < (n + w.nheld.toNat) / 8 →
            w'.buf[w.len + i]? = some (BitVec.ofNat 8
              ((w.held.toNat * 256 ^ ((n + w.nheld.toNat) / 8 - 1) + v.toNat / 2 ^ ((n + w.nheld.toNat) % 8))
                / 256 ^ ((n + w.nheld.toNat) / 8 - 1 - i)))))

/-- R64: `WALIGN0`. A no-op when no bits are held; otherwise the held byte is appended and the held state emptied; the
command equals a `WRITE` of the pad count of zero bits. -/
def Obligations.AlignZeroResult : Prop :=
  ∀ (s : State) (u : Nat) (w : Writer), s.fault.valid = false → s.writers[u]? = some w →
    (w.nheld = 0#3 →
      exec (.walign0 u) s = .next { s with trace := s.trace ++ [{ st := .ok, data := 0#32 }] }) ∧
    (w.nheld ≠ 0#3 → s.wcap < w.len + 1 → Raises (.walign0 u) s .overflow) ∧
    (w.nheld ≠ 0#3 → w.len + 1 ≤ s.wcap →
      exec (.walign0 u) s = .next { s with
        writers := s.writers.set u { buf := w.buf ++ [w.held], held := 0#8, nheld := 0#3 }
        trace := s.trace ++ [{ st := .ok, data := 0#32 }] }) ∧
    exec (.walign0 u) s = exec (.write u ((8 - w.nheld.toNat) % 8) 0#32) s

/-- R65: `WALIGN1`. A no-op when no bits are held; otherwise the held byte, its low bits filled with ones, is appended
and the held state emptied; the command is the `WRITE` of the pad count of one bits. -/
def Obligations.AlignOneResult : Prop :=
  ∀ (s : State) (u : Nat) (w : Writer), s.fault.valid = false → s.writers[u]? = some w →
    (w.nheld = 0#3 →
      exec (.walign1 u) s = .next { s with trace := s.trace ++ [{ st := .ok, data := 0#32 }] }) ∧
    (w.nheld ≠ 0#3 → s.wcap < w.len + 1 → Raises (.walign1 u) s .overflow) ∧
    (w.nheld ≠ 0#3 → w.len + 1 ≤ s.wcap →
      exec (.walign1 u) s = .next { s with
        writers := s.writers.set u
          { buf := w.buf ++ [w.held ||| ((0xFF#8) >>> w.nheld.toNat)], held := 0#8, nheld := 0#3 }
        trace := s.trace ++ [{ st := .ok, data := 0#32 }] }) ∧
    exec (.walign1 u) s =
      exec (.write u ((8 - w.nheld.toNat) % 8) (BitVec.ofNat 32 (2 ^ ((8 - w.nheld.toNat) % 8) - 1))) s

/-- R66: `WLEN` responds with the number of flushed bytes, held bits not counted, and changes nothing. -/
def Obligations.LengthResult : Prop :=
  ∀ (s : State) (u : Nat) (w : Writer), s.fault.valid = false → s.writers[u]? = some w → s.Inv →
    ∃ d : Word, d.toNat = w.buf.length ∧
      exec (.wlen u) s = .next { s with trace := s.trace ++ [{ st := .ok, data := d }] }

/-- R67: `WBYTE` responds with the byte at the index, zero-extended, and changes nothing; an index not below `len`
raises `F_INDEX`. -/
def Obligations.ByteResult : Prop :=
  ∀ (s : State) (u : Nat) (w : Writer) (k : Word), s.fault.valid = false → s.writers[u]? = some w →
    (∀ b : Byte, w.buf[k.toNat]? = some b →
      exec (.wbyte u k) s = .next { s with trace := s.trace ++ [{ st := .ok, data := b.setWidth 32 }] }) ∧
    (w.buf.length ≤ k.toNat → Raises (.wbyte u k) s .index)

/-- R68, R108: `WCLEAR` gives the writer its reset value, discarding held bits, and changes nothing else. -/
def Obligations.ClearResult : Prop :=
  ∀ (s : State) (u : Nat), s.fault.valid = false → u < s.writers.length →
    exec (.wclear u) s = .next { s with
      writers := s.writers.set u { buf := [], held := 0#8, nheld := 0#3 }
      trace := s.trace ++ [{ st := .ok, data := 0#32 }] }

/-! ### Splice (41_splice.md) -/

/-- R76, R77: `WINSERT`. When its checks pass, byte `k` of the new buffer is `D[k]` below the position, `S[k - p]` in
the spliced part and `D[k - Ls]` after it; the held bits of the destination stay, and so does the source. -/
def Obligations.SpliceResult : Prop :=
  ∀ (s : State) (u src : Nat) (d e : Writer) (p : Word),
    s.fault.valid = false → s.writers[u]? = some d → s.writers[src]? = some e →
    src ≠ u → e.nheld = 0#3 → p.toNat ≤ d.len → d.len + e.len ≤ s.wcap →
    ∃ (t : State) (d' : Writer),
      exec (.winsert u src p) s = .next t ∧
      t = { s with writers := s.writers.set u d', trace := s.trace ++ [{ st := .ok, data := 0#32 }] } ∧
      t.writers[src]? = some e ∧
      d'.held = d.held ∧ d'.nheld = d.nheld ∧ d'.len = d.len + e.len ∧
      (∀ k, k < p.toNat → d'.buf[k]? = d.buf[k]?) ∧
      (∀ k, p.toNat ≤ k → k < p.toNat + e.len → d'.buf[k]? = e.buf[k - p.toNat]?) ∧
      (∀ k, p.toNat + e.len ≤ k → d'.buf[k]? = d.buf[k - e.len]?)

/-! ### Reader commands (42_reader.md, 43_lookahead.md) -/

/-- R81: `RBIND` is a fresh construction; a binding past the top of `XMEM` raises `F_BIND`. -/
def Obligations.BindResult : Prop :=
  ∀ (s : State) (u : Nat) (base length : Word), s.fault.valid = false → u < s.readers.length →
    (base.toNat + length.toNat ≤ 2 ^ 32 →
      exec (.rbind u base length) s = .next { s with
        readers := s.readers.set u { base := base, blen := length, cursor := 0#32, held := 0#8, nheld := 0#3 }
        trace := s.trace ++ [{ st := .ok, data := 0#32 }] }) ∧
    (2 ^ 32 < base.toNat + length.toNat → Raises (.rbind u base length) s .bind)

/-- R83: `READ`. From the held bits when they suffice; otherwise the held bits above the top bits of the bytes loaded,
the last byte loaded being kept with its `nh` low bits unconsumed. -/
def Obligations.ReadResult : Prop :=
  ∀ (s : State) (u n : Nat) (r : Reader),
    s.fault.valid = false → s.readers[u]? = some r → r.base.toNat + r.blen.toNat ≤ 2 ^ 32 →
    (32 < n → Raises (.read u n) s .width) ∧
    (n ≤ 32 → n ≤ r.nheld.toNat →
      exec (.read u n) s = .next { s with
        readers := s.readers.set u { r with nheld := BitVec.ofNat 3 (r.nheld.toNat - n) }
        trace := s.trace ++
          [{ st := .ok, data := BitVec.ofNat 32 (r.held.toNat / 2 ^ (r.nheld.toNat - n) % 2 ^ n) }] }) ∧
    (n ≤ 32 → r.nheld.toNat < n → r.blen.toNat < r.cursor.toNat + (n - r.nheld.toNat + 7) / 8 →
      Raises (.read u n) s .overrun) ∧
    (n ≤ 32 → r.nheld.toNat < n → r.cursor.toNat + (n - r.nheld.toNat + 7) / 8 ≤ r.blen.toNat →
      ∃ (r' : Reader) (x : Word),
        exec (.read u n) s = .next { s with
          readers := s.readers.set u r'
          trace := s.trace ++ [{ st := .ok, data := x }] } ∧
        r'.base = r.base ∧ r'.blen = r.blen ∧
        r'.cursor.toNat = r.cursor.toNat + (n - r.nheld.toNat + 7) / 8 ∧
        r'.held = r.byteAt s.xmem (r.cursor.toNat + (n - r.nheld.toNat + 7) / 8 - 1) ∧
        r'.nheld.toNat = 8 * ((n - r.nheld.toNat + 7) / 8) - (n - r.nheld.toNat) ∧
        x.toNat = r.held.toNat % 2 ^ r.nheld.toNat * 2 ^ (n - r.nheld.toNat) +
          r.wordAt s.xmem r.cursor.toNat ((n - r.nheld.toNat + 7) / 8) /
            2 ^ (8 * ((n - r.nheld.toNat + 7) / 8) - (n - r.nheld.toNat)))

/-- R91, R92: `PREAD` answers the result of the `READ` of `min(n, left)` bits, shifted left by the shortfall, and
changes nothing; its only fault is `F_WIDTH`. -/
def Obligations.LookaheadResult : Prop :=
  ∀ (s : State) (u n : Nat) (r : Reader), s.fault.valid = false → s.readers[u]? = some r → r.Inv →
    (32 < n → Raises (.pread u n) s .width) ∧
    (n ≤ 32 →
      ∃ (t : State) (x y : Word),
        exec (.read u (min n (8 * r.blen.toNat - (8 * r.cursor.toNat - r.nheld.toNat)))) s =
          .next { t with trace := s.trace ++ [{ st := .ok, data := x }] } ∧
        exec (.pread u n) s = .next { s with trace := s.trace ++ [{ st := .ok, data := y }] } ∧
        y.toNat = x.toNat * 2 ^ (n - min n (8 * r.blen.toNat - (8 * r.cursor.toNat - r.nheld.toNat))))

/-- R93: the asymmetry of the two reads: with more bits asked than left, the `PREAD` completes and the `READ` of the same
width faults. -/
def Obligations.LookaheadPastTheEndCompletes : Prop :=
  ∀ (s : State) (u n : Nat) (r : Reader), s.fault.valid = false → s.readers[u]? = some r → r.Inv →
    n ≤ 32 → r.left < n →
    Raises (.read u n) s .overrun ∧
    ∃ y : Word, exec (.pread u n) s = .next { s with trace := s.trace ++ [{ st := .ok, data := y }] }

/-- R63, R84, R91: a field of no bits is a legal no-op of `WRITE` (of the value 0), `READ` and `PREAD` in every state
that is not halted. -/
def Obligations.ZeroWidthIsNoOp : Prop :=
  ∀ (s : State) (u : Nat), s.fault.valid = false →
    (u < s.writers.length →
      exec (.write u 0 0#32) s = .next { s with trace := s.trace ++ [{ st := .ok, data := 0#32 }] }) ∧
    (u < s.readers.length →
      exec (.read u 0) s = .next { s with trace := s.trace ++ [{ st := .ok, data := 0#32 }] } ∧
      exec (.pread u 0) s = .next { s with trace := s.trace ++ [{ st := .ok, data := 0#32 }] })

/-- R133: a `READ` of one bit or more before any `RBIND` faults with `F_OVERRUN`, and a `PREAD` responds 0. -/
def Obligations.ReaderBeforeBinding : Prop :=
  ∀ (p : Params) (x : Memory) (u n : Nat), u < p.nr → 1 ≤ n → n ≤ 32 →
    Raises (.read u n) (State.resetWith p x) .overrun ∧
    exec (.pread u n) (State.resetWith p x) =
      .next { State.resetWith p x with trace := [{ st := .ok, data := 0#32 }] }

/-! ### Bit strings and the laws (20_memory.md R33, 49_laws.md) -/

/-- R33: stream bit `p` is bit `7 - p mod 8` of byte `p / 8`; a field written at position `p` puts its bit `n - 1 - t` at
stream bit `p + t`; a field read at position `pos` is right-justified and has stream bit `pos + t` at bit `n - 1 - t`. -/
def Obligations.StreamBitOrder : Prop :=
  (∀ (bytes : List Byte) (p : Nat) (b : Byte), bytes[p / 8]? = some b →
    (bitsOf bytes)[p]? = some (b.getLsbD (7 - p % 8))) ∧
  (∀ (s t : State) (u n : Nat) (v : Word) (w w' : Writer),
    s.fault.valid = false → s.writers[u]? = some w → w.Inv s.wcap →
    exec (.write u n v) s = .next t → t.fault.valid = false → t.writers[u]? = some w' →
    ∀ k, k < n → w'.wbits[8 * w.len + w.nheld.toNat + k]? = some (v.getLsbD (n - 1 - k))) ∧
  (∀ (s t : State) (u n : Nat) (r : Reader) (x : Word),
    s.fault.valid = false → s.readers[u]? = some r → r.Inv → r.Fresh s.xmem →
    exec (.read u n) s = .next t → t.trace = s.trace ++ [{ st := .ok, data := x }] →
    x.toNat < 2 ^ n ∧
    ∀ k, k < n →
      x.getLsbD (n - 1 - k) = (r.byteAt s.xmem ((r.pos + k) / 8)).getLsbD (7 - (r.pos + k) % 8))

/-- R96: the logical bit string of a writer is the bits of its buffer and the `nheld` high bits of `held`; its length is
the written bit count; `held` is its tail beyond the buffer, left-justified and zero-filled, so with the buffer it
determines the whole context. -/
def Obligations.WriterIsItsBitString : Prop :=
  (∀ w : Writer, w.wbits = bitsOf w.buf ++ (be 8 w.held.toNat).take w.nheld.toNat) ∧
  (∀ w : Writer, w.wbits.length = 8 * w.buf.length + w.nheld.toNat) ∧
  (∀ (w : Writer) (wcap : Nat), w.Inv wcap →
    be 8 w.held.toNat = w.wbits.drop (8 * w.buf.length) ++ List.replicate (8 - w.nheld.toNat) false) ∧
  (∀ (w w' : Writer) (wcap : Nat), w.Inv wcap → w'.Inv wcap → w.buf = w'.buf → w.wbits = w'.wbits → w = w')

/-- R97: a `WRITE` that completes appends `be_n(v)` to the logical bit string of its writer. -/
def Obligations.WriteAppendsTheField : Prop :=
  ∀ (s t : State) (u n : Nat) (v : Word) (w w' : Writer),
    s.fault.valid = false → s.writers[u]? = some w → w.Inv s.wcap →
    exec (.write u n v) s = .next t → t.fault.valid = false → t.writers[u]? = some w' →
    w'.wbits = w.wbits ++ be n v.toNat ∧
    w'.len = (8 * w.len + w.nheld.toNat + n) / 8 ∧
    w'.nheld.toNat = (w.nheld.toNat + n) % 8

/-- R98: the align commands append the pad bits up to the next byte boundary and nothing else. -/
def Obligations.AlignAppendsThePad : Prop :=
  ∀ (s : State) (u : Nat) (w : Writer),
    s.fault.valid = false → s.writers[u]? = some w → w.Inv s.wcap → (w.nheld ≠ 0#3 → w.len + 1 ≤ s.wcap) →
    ∃ z o : Writer,
      exec (.walign0 u) s = .next { s with
        writers := s.writers.set u z
        trace := s.trace ++ [{ st := .ok, data := 0#32 }] } ∧
      exec (.walign1 u) s = .next { s with
        writers := s.writers.set u o
        trace := s.trace ++ [{ st := .ok, data := 0#32 }] } ∧
      z.wbits = w.wbits ++ List.replicate ((8 - w.nheld.toNat) % 8) false ∧
      o.wbits = w.wbits ++ List.replicate ((8 - w.nheld.toNat) % 8) true ∧
      z.nheld = 0#3 ∧ z.held = 0#8 ∧ o.nheld = 0#3 ∧ o.held = 0#8 ∧
      z.len = w.len + (if w.nheld = 0#3 then 0 else 1) ∧ o.len = w.len + (if w.nheld = 0#3 then 0 else 1) ∧
      z.wbits = bitsOf z.buf ∧ o.wbits = bitsOf o.buf

/-- R105: a second align command, of either kind, is a no-op. -/
def Obligations.AlignIsIdempotent : Prop :=
  ∀ (s t : State) (u : Nat) (a b : Instr),
    s.fault.valid = false → a ∈ [Instr.walign0 u, Instr.walign1 u] → b ∈ [Instr.walign0 u, Instr.walign1 u] →
    exec a s = .next t → t.fault.valid = false →
    exec b t = .next { t with trace := t.trace ++ [{ st := .ok, data := 0#32 }] }

/-- R101: `READ` delivers the next `n` bits of the stream and advances the read position by `n`; with fewer bits left it
raises `F_OVERRUN`. -/
def Obligations.ReadDeliversTheNextBits : Prop :=
  ∀ (s : State) (u n : Nat) (r : Reader),
    s.fault.valid = false → s.readers[u]? = some r → r.Inv → r.Fresh s.xmem → n ≤ 32 →
    (n ≤ r.left →
      ∃ (r' : Reader) (x : Word),
        exec (.read u n) s = .next { s with
          readers := s.readers.set u r'
          trace := s.trace ++ [{ st := .ok, data := x }] } ∧
        x.toNat = val (r.nextBits s.xmem n) ∧ (r.nextBits s.xmem n).length = n ∧
        r'.pos = r.pos + n ∧ r'.base = r.base ∧ r'.blen = r.blen) ∧
    (r.left < n → Raises (.read u n) s .overrun)

/-- R102: `PREAD` delivers the next `n` bits of the stream followed by zeros, and changes nothing. -/
def Obligations.LookaheadDeliversTheNextBits : Prop :=
  ∀ (s : State) (u n : Nat) (r : Reader),
    s.fault.valid = false → s.readers[u]? = some r → r.Inv → r.Fresh s.xmem → n ≤ 32 →
    ∃ x : Word,
      exec (.pread u n) s = .next { s with trace := s.trace ++ [{ st := .ok, data := x }] } ∧
      x.toNat = val (r.nextBitsZeroFilled s.xmem n) ∧ (r.nextBitsZeroFilled s.xmem n).length = n

/-- R106: `PREAD` of a legal width changes nothing, in every state; with `n` bits left the `READ` after it answers the
same value and leaves the state a lone `READ` would; with fewer left the `READ` after it faults. -/
def Obligations.LookaheadThenRead : Prop :=
  ∀ (s : State) (u n : Nat) (r : Reader),
    s.fault.valid = false → s.readers[u]? = some r → r.Inv → n ≤ 32 →
    ∃ x : Word,
      exec (.pread u n) s = .next { s with trace := s.trace ++ [{ st := .ok, data := x }] } ∧
      (n ≤ r.left → ∃ t : State,
        exec (.read u n) s = .next { t with trace := s.trace ++ [{ st := .ok, data := x }] } ∧
        exec (.read u n) { s with trace := s.trace ++ [{ st := .ok, data := x }] } =
          .next { t with trace := s.trace ++ [{ st := .ok, data := x }, { st := .ok, data := x }] }) ∧
      (r.left < n →
        Raises (.read u n) { s with trace := s.trace ++ [{ st := .ok, data := x }] } .overrun)

/-- R107: the splice of an aligned source gives `A[0:p] ++ B ++ A[p:]` and leaves the source unchanged. -/
def Obligations.SpliceIsTakeInsertDrop : Prop :=
  ∀ (s : State) (u src : Nat) (d e : Writer) (p : Word),
    s.fault.valid = false → s.writers[u]? = some d → s.writers[src]? = some e →
    src ≠ u → e.nheld = 0#3 → p.toNat ≤ d.len → d.len + e.len ≤ s.wcap →
    ∃ t : State, exec (.winsert u src p) s = .next t ∧
      t.trace = s.trace ++ [{ st := .ok, data := 0#32 }] ∧
      t.writers[u]? = some { d with buf := d.buf.take p.toNat ++ e.buf ++ d.buf.drop p.toNat } ∧
      t.writers[src]? = some e

/-- R108: after `WCLEAR` a writer equals its reset value, and after `RBIND` a reader is a freshly constructed one,
whatever it was before. -/
def Obligations.ReuseIsFresh : Prop :=
  ∀ (s t : State) (p : Params) (x : Memory), s.fault.valid = false →
    (∀ u : Nat, u < p.nw → exec (.wclear u) s = .next t → t.fault.valid = false →
      t.writers[u]? = (State.resetWith p x).writers[u]?) ∧
    (∀ (u : Nat) (base length : Word), exec (.rbind u base length) s = .next t → t.fault.valid = false →
      t.readers[u]? = some (Reader.bound base length))

/-- R104: over any sequence of completed `WRITE` and align commands on a writer, from any state, the written bit count
grows by the sum of the widths and of the pad counts; from an empty writer the sum is `8 * len + nheld`. -/
def Obligations.BitCountConservation : Prop :=
  ∀ (cmds : List Instr) (s t : State) (u total : Nat) (w w' : Writer),
    (∀ i ∈ cmds, appendsTo u i = true) → s.fault.valid = false →
    s.writers[u]? = some w → t.writers[u]? = some w' → tally u cmds s = some (t, total) →
    8 * w'.buf.length + w'.nheld.toNat = 8 * w.buf.length + w.nheld.toNat + total

/-- R103: the round-trip law. Fields written in order to an empty writer and aligned, with zeros or with ones, the bytes
stored in `XMEM` by the host and bound to a reader, are read back unchanged by reads of the same widths, and the pad
bits remain unread. That `play` runs the host's commands and writes as a list the state holds is the model's choice
(log 3). -/
def Obligations.RoundTrip : Prop :=
  ∀ (s : State) (fields : List (Nat × Word)) (w r : Nat) (align : Instr),
    s.Inv → s.fault.valid = false →
    s.writers[w]? = some Writer.empty → r < s.readers.length →
    (∀ f ∈ fields, f.1 ≤ 32 ∧ f.2.toNat < 2 ^ f.1) →
    ((fields.map Prod.fst).sum + 7) / 8 ≤ s.wcap →
    align ∈ [Instr.walign0 w, Instr.walign1 w] →
    ∃ (s₁ : State) (bytes : List Byte),
      play (presents ((fields.map fun f => Instr.write w f.1 f.2) ++ [align])) s = .next s₁ ∧
      s₁.trace = s.trace ++ List.replicate (fields.length + 1) { st := .ok, data := 0#32 } ∧
      s₁.writers[w]? = some { buf := bytes, held := 0#8, nheld := 0#3 } ∧
      bytes.length = ((fields.map Prod.fst).sum + 7) / 8 ∧
      ∀ base : Word, base.toNat + bytes.length ≤ 2 ^ 32 →
        ∃ (s₂ : State) (r' : Reader),
          play (stores base.toNat bytes ++
            presents (.rbind r base (BitVec.ofNat 32 bytes.length) ::
              fields.map fun f => Instr.read r f.1)) s₁ = .next s₂ ∧
          s₂.trace = s₁.trace ++ { st := .ok, data := 0#32 } :: fields.map (fun f => { st := .ok, data := f.2 }) ∧
          s₂.readers[r]? = some r' ∧
          r'.left = (8 - (fields.map Prod.fst).sum % 8) % 8

/-- R109: the two scenarios of the source, bit for bit (95_test_vectors.md V1, V2), from `State.reset`, whose parameters and
empty memory are the model's choice (logs 1, 2), as is the list of the host's actions that `play` runs (log 3). -/
def Obligations.SourceScenarios : Prop :=
  (∃ t : State,
    play (presents [.write 0 3 5#32, .write 0 8 0xCA#32, .walign0 0, .wlen 0, .wbyte 0 0#32, .wbyte 0 1#32] ++
      stores 0x1000 [0xB9#8, 0x40#8] ++
      presents [.rbind 0 0x1000#32 2#32, .read 0 3, .read 0 8, .pread 0 5]) State.reset = .next t ∧
    t.trace.map Response.data = [0#32, 0#32, 0#32, 2#32, 0xB9#32, 0x40#32, 0#32, 5#32, 0xCA#32, 0#32] ∧
    t.trace.all (fun r => r.st == .ok) = true ∧
    t.readers.map Reader.left = [5]) ∧
  (∃ t : State,
    play (presents [.write 0 1 1#32, .walign1 0, .wlen 0, .wbyte 0 0#32]) State.reset = .next t ∧
    t.trace.map Response.data = [0#32, 0#32, 1#32, 0xFF#32])

/-! ### Invariants (10_state.md R15, R23; 49_laws.md R95, R100) -/

/-- R95: every command keeps the writer invariant, for every context, whether it completes or faults. -/
def Obligations.CommandsKeepWriterInvariant : Prop :=
  ∀ (i : Instr) (s t : State), (∀ w ∈ s.writers, w.Inv s.wcap) → exec i s = .next t →
    ∀ w ∈ t.writers, w.Inv t.wcap

/-- R100: every command keeps the reader invariant for every context, whether it completes or faults; and in each context
clause (d), that `held` is the last byte loaded, as long as the host has not rewritten that byte. -/
def Obligations.CommandsKeepReaderInvariant : Prop :=
  (∀ (i : Instr) (s t : State), (∀ r ∈ s.readers, r.Inv) → exec i s = .next t → ∀ r ∈ t.readers, r.Inv) ∧
  (∀ (i : Instr) (s t : State) (j : Nat) (r r' : Reader),
    s.readers[j]? = some r → r.Inv → r.Fresh s.xmem → exec i s = .next t → t.readers[j]? = some r' →
    r'.Inv ∧ r'.Fresh t.xmem)

/-- Every step, of a command, of the host or of reset, keeps the invariant of the whole state (R15, R23, R25). -/
def Obligations.StepKeepsInvariant : Prop :=
  ∀ s t : State, s.Inv → step s = .next t → t.Inv

/-- R6: every command terminates, and so does every step: in a state with the invariant the machine answers a next
state, never a stop of the model. -/
def Obligations.EveryStepCompletes : Prop :=
  (∀ (i : Instr) (s : State), s.Inv → ∃ t, exec i s = .next t) ∧
  (∀ s : State, s.Inv → ∃ t, step s = .next t)

/-- Every run from reset completes, under every script of the host, every parameter and every content of `XMEM`; it
keeps the invariant and answers one response per command (R6, R52, R142). That a script is a list the state holds and
that the trace is kept over a reset is the model's choice (logs 3, 4). -/
def Obligations.EveryRunCompletes : Prop :=
  ∀ (p : Params) (x : Memory) (script : List HostAction), p.InRange → x.wf = true →
    ∃ t : State, play script (State.resetWith p x) = .next t ∧ t.Inv ∧ t.host = [] ∧
      t.trace.length = script.countP HostAction.isCommand
end

