-- ==== Sys2Proof/Laws/Bits.lean ====
section
/-! SUPPORT. The laws of bit strings: `be`, `val`, `bitsOf` (00_scope.md section 7, 20_memory.md R33), and the bytes of a
word (40_writer.md R62). -/

namespace Sys2Proof.Machine

@[simp] theorem be_zero (v : Nat) : be 0 v = [] := rfl

@[simp] theorem be_length (n v : Nat) : (be n v).length = n := by
  induction n with
  | zero => rfl
  | succ n ih => simp [be, ih]

/-- Bit `t` of `be_n(v)` is `v[n-1-t]`. -/
theorem be_getElem? {n v t : Nat} (h : t < n) : (be n v)[t]? = some (v.testBit (n - 1 - t)) := by
  induction n generalizing t with
  | zero => omega
  | succ n ih =>
    cases t with
    | zero => simp [be]
    | succ t =>
      simp only [be, List.getElem?_cons_succ]
      rw [ih (by omega)]
      congr 2
      omega

/-- Bit strings that agree at every index below their common length are equal to a `be`. -/
theorem eq_be_of_bits {bs : List Bool} {n v : Nat} (hl : bs.length = n)
    (h : ∀ t, t < n → bs[t]? = some (v.testBit (n - 1 - t))) : bs = be n v := by
  apply List.ext_getElem? 
  intro t
  by_cases ht : t < n
  · rw [h t ht, be_getElem? ht]
  · rw [List.getElem?_eq_none (by omega), List.getElem?_eq_none (by simp; omega)]

/-- `be` sees only the low `n` bits. -/
theorem be_congr {n v v' : Nat} (h : ∀ b, b < n → v.testBit b = v'.testBit b) : be n v = be n v' := by
  refine eq_be_of_bits (be_length n v) fun t ht => ?_
  rw [be_getElem? ht, h _ (by omega)]

theorem be_mod (n v : Nat) : be n (v % 2 ^ n) = be n v :=
  be_congr fun b hb => by simp [Nat.testBit_mod_two_pow, hb]

/-- A bit string of `a + b` bits is its `a` high bits followed by its `b` low bits. -/
theorem be_add (a b v : Nat) : be (a + b) v = be a (v >>> b) ++ be b v := by
  symm
  refine eq_be_of_bits (by simp) fun t ht => ?_
  by_cases h : t < a
  · rw [List.getElem?_append_left (by simpa using h), be_getElem? h]
    simp only [Nat.testBit_shiftRight]
    congr 2
    omega
  · rw [List.getElem?_append_right (by simpa using Nat.le_of_not_lt h), be_length, be_getElem? (by omega)]
    congr 2
    omega

/-- The `k` high bits of a bit string. -/
theorem be_take {n k v : Nat} (h : k ≤ n) : (be n v).take k = be k (v >>> (n - k)) := by
  obtain ⟨m, rfl⟩ := Nat.exists_eq_add_of_le h
  rw [be_add, show k + m - k = m by omega, List.take_append_of_le_length (by simp)]
  rw [List.take_of_length_le (by simp)]

/-- The bits of a bit string after its `k` high ones. -/
theorem be_drop {n k v : Nat} (h : k ≤ n) : (be n v).drop k = be (n - k) v := by
  obtain ⟨m, rfl⟩ := Nat.exists_eq_add_of_le h
  rw [be_add, show k + m - k = m by omega, List.drop_append_of_le_length (by simp)]
  rw [List.drop_of_length_le (by simp), List.nil_append]

theorem be_zero_value (n : Nat) : be n 0 = List.replicate n false := by
  induction n with
  | zero => rfl
  | succ n ih => simp [be, ih, List.replicate_succ]

theorem be_mask (n : Nat) : be n (mask n) = List.replicate n true := by
  apply List.ext_getElem?
  intro t
  by_cases h : t < n
  · rw [be_getElem? h]
    simp only [mask, Nat.testBit_two_pow_sub_one]
    rw [List.getElem?_replicate]
    simp [h]
    omega
  · rw [List.getElem?_eq_none (by simp; omega), List.getElem?_eq_none (by simp; omega)]

/-! ### The number a bit string stands for -/

theorem val_foldl (bs : List Bool) : ∀ acc : Nat,
    bs.foldl (fun acc b => 2 * acc + b.toNat) acc = acc * 2 ^ bs.length + val bs := by
  induction bs with
  | nil => intro acc; simp [val]
  | cons b bs ih =>
    intro acc
    have hv : val (b :: bs) = b.toNat * 2 ^ bs.length + val bs := by
      show bs.foldl _ (2 * 0 + b.toNat) = _
      rw [ih, Nat.mul_zero, Nat.zero_add]
    rw [List.foldl_cons, ih, hv, List.length_cons, Nat.pow_succ, Nat.add_mul, Nat.add_assoc,
      Nat.mul_comm 2 acc, Nat.mul_assoc, Nat.mul_comm 2]

theorem val_append (a b : List Bool) : val (a ++ b) = val a * 2 ^ b.length + val b := by
  simp only [val, List.foldl_append]
  rw [val_foldl]
  rfl

@[simp] theorem val_nil : val [] = 0 := rfl

theorem val_be (n v : Nat) : val (be n v) = v % 2 ^ n := by
  induction n with
  | zero => simp [Nat.mod_one]
  | succ n ih =>
    have h : be (n + 1) v = [v.testBit n] ++ be n v := rfl
    rw [h, val_append, ih, be_length]
    have h1 : val [v.testBit n] = v / 2 ^ n % 2 := by
      simp [val, Nat.testBit_eq_decide_div_mod_eq]
      rcases Nat.mod_two_eq_zero_or_one (v / 2 ^ n) with h | h <;> simp [h]
    rw [h1, Nat.pow_succ, Nat.mod_mul, Nat.mul_comm]
    omega

theorem val_replicate_false (n : Nat) : val (List.replicate n false) = 0 := by
  rw [← be_zero_value, val_be]; simp

/-- Every bit string is the `be` of the number it stands for. -/
theorem be_val (bs : List Bool) : be bs.length (val bs) = bs := by
  induction bs with
  | nil => rfl
  | cons b bs ih =>
    have h : b :: bs = [b] ++ bs := rfl
    have hlt : val bs < 2 ^ bs.length := by
      have := val_be bs.length (val bs)
      rw [ih] at this
      rw [this]
      exact Nat.mod_lt _ (Nat.two_pow_pos _)
    have hv : val (b :: bs) = b.toNat * 2 ^ bs.length + val bs := by
      rw [h, val_append]; simp [val]
    simp only [List.length_cons, be]
    congr 1
    · rw [hv, Nat.mul_comm, Nat.testBit_two_pow_mul_add _ hlt]
      cases b <;> simp
    · rw [← be_mod, hv, Nat.mul_comm, Nat.mul_add_mod, Nat.mod_eq_of_lt hlt, ih]

/-! ### Bytes -/

@[simp] theorem bitsOf_nil : bitsOf [] = [] := rfl

theorem bitsOf_cons (b : Byte) (bs : List Byte) : bitsOf (b :: bs) = be 8 b.toNat ++ bitsOf bs := rfl

@[simp] theorem bitsOf_append (a b : List Byte) : bitsOf (a ++ b) = bitsOf a ++ bitsOf b := by
  simp [bitsOf]

@[simp] theorem bitsOf_length (bs : List Byte) : (bitsOf bs).length = 8 * bs.length := by
  induction bs with
  | nil => rfl
  | cons b bs ih => rw [bitsOf_cons, List.length_append, be_length, ih, List.length_cons]; omega

/-- The bits from byte `k` on are the bits of the bytes from `k` on. -/
theorem bitsOf_drop (bs : List Byte) : ∀ k : Nat, (bitsOf bs).drop (8 * k) = bitsOf (bs.drop k) := by
  induction bs with
  | nil => intro k; simp
  | cons b bs ih =>
    intro k
    cases k with
    | zero => simp
    | succ k =>
      rw [bitsOf_cons, show 8 * (k + 1) = 8 + 8 * k by omega, List.drop_append, be_length,
        List.drop_of_length_le (by simp), List.nil_append, show 8 + 8 * k - 8 = 8 * k by omega, ih]
      rfl

/-- The bits of the first `k` bytes. -/
theorem bitsOf_take (bs : List Byte) : ∀ k : Nat, (bitsOf bs).take (8 * k) = bitsOf (bs.take k) := by
  induction bs with
  | nil => intro k; simp
  | cons b bs ih =>
    intro k
    cases k with
    | zero => simp
    | succ k =>
      rw [bitsOf_cons, show 8 * (k + 1) = 8 + 8 * k by omega, List.take_append, be_length,
        List.take_of_length_le (by simp), show 8 + 8 * k - 8 = 8 * k by omega, ih]
      rfl

/-- Byte sequences with the same bits are equal. -/
theorem bitsOf_inj : ∀ {a b : List Byte}, bitsOf a = bitsOf b → a = b := by
  intro a
  induction a with
  | nil =>
    intro b h
    cases b with
    | nil => rfl
    | cons y b =>
      have := congrArg List.length h
      rw [bitsOf_cons, List.length_append, be_length, bitsOf_nil, List.length_nil] at this
      omega
  | cons x a ih =>
    intro b h
    cases b with
    | nil =>
      have := congrArg List.length h
      simp at this
    | cons y b =>
      rw [bitsOf_cons, bitsOf_cons] at h
      obtain ⟨h1, h2⟩ := List.append_inj h (by simp)
      have hv := congrArg val h1
      rw [val_be, val_be, Nat.mod_eq_of_lt x.isLt, Nat.mod_eq_of_lt y.isLt] at hv
      rw [BitVec.eq_of_toNat_eq hv, ih h2]

@[simp] theorem bytesOfWord_length (k word : Nat) : (bytesOfWord k word).length = k := by simp [bytesOfWord]

/-- Byte `i` of the bytes of a word (40_writer.md R62). -/
theorem bytesOfWord_getElem? {k word i : Nat} (h : i < k) :
    (bytesOfWord k word)[i]? = some (BitVec.ofNat 8 (word >>> (8 * (k - 1 - i)))) := by
  simp [bytesOfWord, h]

theorem bytesOfWord_succ (k word : Nat) :
    bytesOfWord (k + 1) word = bytesOfWord k (word >>> 8) ++ [BitVec.ofNat 8 word] := by
  simp only [bytesOfWord, List.range_succ, List.map_append, List.map_cons, List.map_nil]
  congr 1
  · apply List.map_congr_left
    intro i hi
    have hi := List.mem_range.mp hi
    rw [← Nat.shiftRight_add]
    congr 2
    omega
  · simp

/-- The bits of the `k` bytes of a word are its `8 * k` low bits (20_memory.md R34). -/
theorem bitsOf_bytesOfWord (k word : Nat) : bitsOf (bytesOfWord k word) = be (8 * k) word := by
  induction k generalizing word with
  | zero => rfl
  | succ k ih =>
    rw [bytesOfWord_succ, bitsOf_append, ih, show 8 * (k + 1) = 8 * k + 8 by omega, be_add]
    congr 1
    simp only [bitsOf, List.flatMap_cons, List.flatMap_nil, List.append_nil, BitVec.toNat_ofNat]
    exact be_mod 8 word

theorem foldl_bytes (bs : List Byte) : ∀ acc : Nat,
    bs.foldl (fun acc b => 256 * acc + b.toNat) acc = acc * 2 ^ (8 * bs.length) + val (bitsOf bs) := by
  induction bs with
  | nil => intro acc; simp
  | cons b bs ih =>
    intro acc
    rw [List.foldl_cons, ih, bitsOf_cons, val_append, val_be, Nat.mod_eq_of_lt b.isLt, bitsOf_length,
      List.length_cons, show 8 * (bs.length + 1) = 8 * bs.length + 8 by omega, Nat.pow_add, Nat.add_mul,
      Nat.add_assoc, Nat.mul_comm 256 acc, Nat.mul_assoc, Nat.mul_comm 256]

/-- The number of the bits of a byte sequence is the big-endian number of its bytes (20_memory.md R34). -/
theorem val_bitsOf (bs : List Byte) : val (bitsOf bs) = bs.foldl (fun acc b => 256 * acc + b.toNat) 0 := by
  simp [foldl_bytes]

end Sys2Proof.Machine
end

