-- ==== Sys2Proof/Laws/State.lean ====
section
/-! SUPPORT. One lemma per field of State for each named update, so that no later proof unfolds a record update. -/

namespace Sys2Proof.Machine

@[simp] theorem State.respond_writers (s : State) (r : Response) : (s.respond r).writers = s.writers := rfl
@[simp] theorem State.respond_readers (s : State) (r : Response) : (s.respond r).readers = s.readers := rfl
@[simp] theorem State.respond_fault (s : State) (r : Response) : (s.respond r).fault = s.fault := rfl
@[simp] theorem State.respond_xmem (s : State) (r : Response) : (s.respond r).xmem = s.xmem := rfl
@[simp] theorem State.respond_wcap (s : State) (r : Response) : (s.respond r).wcap = s.wcap := rfl
@[simp] theorem State.respond_host (s : State) (r : Response) : (s.respond r).host = s.host := rfl
@[simp] theorem State.respond_trace (s : State) (r : Response) : (s.respond r).trace = s.trace ++ [r] := rfl

@[simp] theorem State.takeFault_writers (s : State) (c : Cause) : (s.takeFault c).writers = s.writers := rfl
@[simp] theorem State.takeFault_readers (s : State) (c : Cause) : (s.takeFault c).readers = s.readers := rfl
@[simp] theorem State.takeFault_fault (s : State) (c : Cause) : (s.takeFault c).fault = { valid := true, cause := c.code } := rfl
@[simp] theorem State.takeFault_xmem (s : State) (c : Cause) : (s.takeFault c).xmem = s.xmem := rfl
@[simp] theorem State.takeFault_wcap (s : State) (c : Cause) : (s.takeFault c).wcap = s.wcap := rfl
@[simp] theorem State.takeFault_host (s : State) (c : Cause) : (s.takeFault c).host = s.host := rfl
@[simp] theorem State.takeFault_trace (s : State) (c : Cause) : (s.takeFault c).trace = s.trace ++ [Response.faulted c.code] := rfl

@[simp] theorem State.haltedReply_writers (s : State) : s.haltedReply.writers = s.writers := rfl
@[simp] theorem State.haltedReply_readers (s : State) : s.haltedReply.readers = s.readers := rfl
@[simp] theorem State.haltedReply_fault (s : State) : s.haltedReply.fault = s.fault := rfl
@[simp] theorem State.haltedReply_xmem (s : State) : s.haltedReply.xmem = s.xmem := rfl
@[simp] theorem State.haltedReply_wcap (s : State) : s.haltedReply.wcap = s.wcap := rfl
@[simp] theorem State.haltedReply_host (s : State) : s.haltedReply.host = s.host := rfl
@[simp] theorem State.haltedReply_trace (s : State) : s.haltedReply.trace = s.trace ++ [Response.faulted s.fault.cause] := rfl

@[simp] theorem State.applyReset_writers (s : State) : s.applyReset.writers = List.replicate s.writers.length Writer.empty := rfl
@[simp] theorem State.applyReset_readers (s : State) : s.applyReset.readers = List.replicate s.readers.length Reader.unbound := rfl
@[simp] theorem State.applyReset_fault (s : State) : s.applyReset.fault = FaultReg.clear := rfl
@[simp] theorem State.applyReset_xmem (s : State) : s.applyReset.xmem = s.xmem := rfl
@[simp] theorem State.applyReset_wcap (s : State) : s.applyReset.wcap = s.wcap := rfl
@[simp] theorem State.applyReset_host (s : State) : s.applyReset.host = s.host := rfl
@[simp] theorem State.applyReset_trace (s : State) : s.applyReset.trace = s.trace := rfl

@[simp] theorem State.withHost_writers (s : State) (rest : List HostAction) : (s.withHost rest).writers = s.writers := rfl
@[simp] theorem State.withHost_readers (s : State) (rest : List HostAction) : (s.withHost rest).readers = s.readers := rfl
@[simp] theorem State.withHost_fault (s : State) (rest : List HostAction) : (s.withHost rest).fault = s.fault := rfl
@[simp] theorem State.withHost_xmem (s : State) (rest : List HostAction) : (s.withHost rest).xmem = s.xmem := rfl
@[simp] theorem State.withHost_wcap (s : State) (rest : List HostAction) : (s.withHost rest).wcap = s.wcap := rfl
@[simp] theorem State.withHost_host (s : State) (rest : List HostAction) : (s.withHost rest).host = rest := rfl
@[simp] theorem State.withHost_trace (s : State) (rest : List HostAction) : (s.withHost rest).trace = s.trace := rfl

@[simp] theorem State.present_writers (s : State) (c : CmdWord) : (s.present c).writers = s.writers := rfl
@[simp] theorem State.present_readers (s : State) (c : CmdWord) : (s.present c).readers = s.readers := rfl
@[simp] theorem State.present_fault (s : State) (c : CmdWord) : (s.present c).fault = s.fault := rfl
@[simp] theorem State.present_xmem (s : State) (c : CmdWord) : (s.present c).xmem = s.xmem := rfl
@[simp] theorem State.present_wcap (s : State) (c : CmdWord) : (s.present c).wcap = s.wcap := rfl
@[simp] theorem State.present_host (s : State) (c : CmdWord) : (s.present c).host = .command c :: s.host := rfl
@[simp] theorem State.present_trace (s : State) (c : CmdWord) : (s.present c).trace = s.trace := rfl

@[simp] theorem State.hostWrite_writers (s : State) (addr : Word) (b : Byte) : (s.hostWrite addr b).writers = s.writers := rfl
@[simp] theorem State.hostWrite_readers (s : State) (addr : Word) (b : Byte) : (s.hostWrite addr b).readers = s.readers := rfl
@[simp] theorem State.hostWrite_fault (s : State) (addr : Word) (b : Byte) : (s.hostWrite addr b).fault = s.fault := rfl
@[simp] theorem State.hostWrite_xmem (s : State) (addr : Word) (b : Byte) : (s.hostWrite addr b).xmem = s.xmem.put addr.toNat b := rfl
@[simp] theorem State.hostWrite_wcap (s : State) (addr : Word) (b : Byte) : (s.hostWrite addr b).wcap = s.wcap := rfl
@[simp] theorem State.hostWrite_host (s : State) (addr : Word) (b : Byte) : (s.hostWrite addr b).host = s.host := rfl
@[simp] theorem State.hostWrite_trace (s : State) (addr : Word) (b : Byte) : (s.hostWrite addr b).trace = s.trace := rfl

@[simp] theorem State.setWriter_writers (s : State) (u : Nat) (w : Writer) : (s.setWriter u w).writers = s.writers.set u w := rfl
@[simp] theorem State.setWriter_readers (s : State) (u : Nat) (w : Writer) : (s.setWriter u w).readers = s.readers := rfl
@[simp] theorem State.setWriter_fault (s : State) (u : Nat) (w : Writer) : (s.setWriter u w).fault = s.fault := rfl
@[simp] theorem State.setWriter_xmem (s : State) (u : Nat) (w : Writer) : (s.setWriter u w).xmem = s.xmem := rfl
@[simp] theorem State.setWriter_wcap (s : State) (u : Nat) (w : Writer) : (s.setWriter u w).wcap = s.wcap := rfl
@[simp] theorem State.setWriter_host (s : State) (u : Nat) (w : Writer) : (s.setWriter u w).host = s.host := rfl
@[simp] theorem State.setWriter_trace (s : State) (u : Nat) (w : Writer) : (s.setWriter u w).trace = s.trace := rfl

@[simp] theorem State.setReader_writers (s : State) (u : Nat) (r : Reader) : (s.setReader u r).writers = s.writers := rfl
@[simp] theorem State.setReader_readers (s : State) (u : Nat) (r : Reader) : (s.setReader u r).readers = s.readers.set u r := rfl
@[simp] theorem State.setReader_fault (s : State) (u : Nat) (r : Reader) : (s.setReader u r).fault = s.fault := rfl
@[simp] theorem State.setReader_xmem (s : State) (u : Nat) (r : Reader) : (s.setReader u r).xmem = s.xmem := rfl
@[simp] theorem State.setReader_wcap (s : State) (u : Nat) (r : Reader) : (s.setReader u r).wcap = s.wcap := rfl
@[simp] theorem State.setReader_host (s : State) (u : Nat) (r : Reader) : (s.setReader u r).host = s.host := rfl
@[simp] theorem State.setReader_trace (s : State) (u : Nat) (r : Reader) : (s.setReader u r).trace = s.trace := rfl

/-! ### The state after reset -/

@[simp] theorem State.resetWith_writers (p : Params) (x : Memory) : (State.resetWith p x).writers = List.replicate p.nw Writer.empty := rfl
@[simp] theorem State.resetWith_readers (p : Params) (x : Memory) : (State.resetWith p x).readers = List.replicate p.nr Reader.unbound := rfl
@[simp] theorem State.resetWith_fault (p : Params) (x : Memory) : (State.resetWith p x).fault = FaultReg.clear := rfl
@[simp] theorem State.resetWith_xmem (p : Params) (x : Memory) : (State.resetWith p x).xmem = x := rfl
@[simp] theorem State.resetWith_wcap (p : Params) (x : Memory) : (State.resetWith p x).wcap = p.wcap := rfl
@[simp] theorem State.resetWith_host (p : Params) (x : Memory) : (State.resetWith p x).host = [] := rfl
@[simp] theorem State.resetWith_trace (p : Params) (x : Memory) : (State.resetWith p x).trace = [] := rfl

@[simp] theorem State.halted_eq (s : State) : s.halted = s.fault.valid := rfl
@[simp] theorem FaultReg.clear_valid : FaultReg.clear.valid = false := rfl
@[simp] theorem FaultReg.clear_cause : FaultReg.clear.cause = 0#8 := rfl
@[simp] theorem Writer.empty_buf : Writer.empty.buf = [] := rfl
@[simp] theorem Writer.empty_held : Writer.empty.held = 0#8 := rfl
@[simp] theorem Writer.empty_nheld : Writer.empty.nheld = 0#3 := rfl
@[simp] theorem Writer.empty_len : Writer.empty.len = 0 := rfl
@[simp] theorem Reader.bound_base (base length : Word) : (Reader.bound base length).base = base := rfl
@[simp] theorem Reader.bound_blen (base length : Word) : (Reader.bound base length).blen = length := rfl
@[simp] theorem Reader.bound_cursor (base length : Word) : (Reader.bound base length).cursor = 0#32 := rfl
@[simp] theorem Reader.bound_held (base length : Word) : (Reader.bound base length).held = 0#8 := rfl
@[simp] theorem Reader.bound_nheld (base length : Word) : (Reader.bound base length).nheld = 0#3 := rfl

/-! ### Setting a context to what it is changes nothing -/

/-- Writing back the writer that is there gives the same state. -/
theorem State.setWriter_self (s : State) (u : Nat) (w : Writer) (h : s.writers[u]? = some w) : s.setWriter u w = s := by
  obtain ⟨hu, hw⟩ := List.getElem?_eq_some_iff.mp h
  subst hw
  simp [State.setWriter]

/-- Writing back the reader that is there gives the same state. -/
theorem State.setReader_self (s : State) (u : Nat) (r : Reader) (h : s.readers[u]? = some r) : s.setReader u r = s := by
  obtain ⟨hu, hr⟩ := List.getElem?_eq_some_iff.mp h
  subst hr
  simp [State.setReader]

end Sys2Proof.Machine
end

