-- ==== Sys2Proof/Laws/Commands.lean ====
section
/-! SUPPORT. What a command can do, said once: the frame common to all commands, and one inversion of `exec` that the
claims about every command cite instead of unfolding the meanings. -/

namespace Sys2Proof.Machine

/-! ### The frame common to all commands -/

theorem State.command_halted {s : State} (x : Result (State × Word)) (h : s.fault.valid = true) :
    s.command x = .next s.haltedReply := by
  simp [State.command, State.halted, h]

theorem State.command_done {s : State} (p : State × Word) (h : s.fault.valid = false) :
    s.command (.done p) = .next (State.finish p) := by
  simp [State.command, State.halted, h]

theorem State.command_raise {s : State} (c : Cause) (h : s.fault.valid = false) :
    s.command (.raise c) = .next (s.takeFault c) := by
  simp [State.command, State.halted, h]

theorem State.command_stop {s : State} (f : Fault) (h : s.fault.valid = false) :
    s.command (.stop f) = .fault f := by
  simp [State.command, State.halted, h]

/-- When a command answers a next state: the halted reply, completion, or fault entry (60_exceptions.md R111, R112). -/
theorem State.command_next {s t : State} {x : Result (State × Word)} (h : s.command x = .next t) :
    (s.fault.valid = true ∧ t = s.haltedReply) ∨
    (s.fault.valid = false ∧ ∃ p, x = .done p ∧ t = State.finish p) ∨
    (s.fault.valid = false ∧ ∃ c, x = .raise c ∧ t = s.takeFault c) := by
  cases hv : s.fault.valid with
  | true =>
    rw [State.command_halted x hv] at h
    cases h
    exact .inl ⟨rfl, rfl⟩
  | false =>
    cases x with
    | done p =>
      rw [State.command_done p hv] at h
      cases h
      exact .inr (.inl ⟨rfl, p, rfl, rfl⟩)
    | raise c =>
      rw [State.command_raise c hv] at h
      cases h
      exact .inr (.inr ⟨rfl, c, rfl, rfl⟩)
    | stop f => rw [State.command_stop f hv] at h; cases h

/-- Two commands on a running engine answer the same fault entry exactly when they raise the same cause. -/
theorem State.command_eq_takeFault {s : State} {x : Result (State × Word)} {c : Cause} (h : s.fault.valid = false) 
    (hx : ∀ p, x = .done p → p.1.fault = s.fault) :
    s.command x = .next (s.takeFault c) ↔ x = .raise c := by
  constructor
  · intro hc
    rcases State.command_next hc with ⟨hv, _⟩ | ⟨_, p, rfl, he⟩ | ⟨_, c', rfl, he⟩
    · rw [h] at hv; cases hv
    · have := congrArg (fun t => t.fault.valid) he
      simp [State.finish, hx p rfl, h] at this
    · have := congrArg (fun t => t.fault.cause) he
      have hcc : c.code = c'.code := by simpa using this
      have : c = c' := by revert hcc; cases c <;> cases c' <;> decide
      rw [this]
  · rintro rfl
    exact State.command_raise c h

theorem State.withWriter_some {s : State} {u : Nat} {w : Writer} {body : Writer → Result (State × Word)}
    (h : s.writers[u]? = some w) : s.withWriter u body = body w := by simp [State.withWriter, h]

theorem State.withWriter_none {s : State} {u : Nat} {body : Writer → Result (State × Word)}
    (h : s.writers.length ≤ u) : s.withWriter u body = .raise .unit := by
  simp [State.withWriter, List.getElem?_eq_none h]

theorem State.withReader_some {s : State} {u : Nat} {r : Reader} {body : Reader → Result (State × Word)}
    (h : s.readers[u]? = some r) : s.withReader u body = body r := by simp [State.withReader, h]

theorem State.withReader_none {s : State} {u : Nat} {body : Reader → Result (State × Word)}
    (h : s.readers.length ≤ u) : s.withReader u body = .raise .unit := by
  simp [State.withReader, List.getElem?_eq_none h]

theorem State.withWriter_done {s : State} {u : Nat} {body : Writer → Result (State × Word)} {p : State × Word}
    (h : s.withWriter u body = .done p) : ∃ w, s.writers[u]? = some w ∧ body w = .done p := by
  unfold State.withWriter at h
  split at h
  · cases h
  · next w hw => exact ⟨w, hw, h⟩

theorem State.withReader_done {s : State} {u : Nat} {body : Reader → Result (State × Word)} {p : State × Word}
    (h : s.withReader u body = .done p) : ∃ r, s.readers[u]? = some r ∧ body r = .done p := by
  unfold State.withReader at h
  split at h
  · cases h
  · next r hr => exact ⟨r, hr, h⟩

@[simp] theorem Result.andThen_done {α β : Type} (a : α) (f : α → Result β) : (Result.done a).andThen f = f a := rfl
@[simp] theorem Result.andThen_raise {α β : Type} (c : Cause) (f : α → Result β) :
    (Result.raise c).andThen f = .raise c := rfl
@[simp] theorem Result.andThen_stop {α β : Type} (r : Fault) (f : α → Result β) :
    (Result.stop r).andThen f = .stop r := rfl

theorem Result.andThen_eq_done {α β : Type} {x : Result α} {f : α → Result β} {b : β} (h : x.andThen f = .done b) :
    ∃ a, x = .done a ∧ f a = .done b := by
  cases x with
  | done a => exact ⟨a, rfl, h⟩
  | raise c => cases h
  | stop r => cases h

theorem Result.andThen_eq_stop {α β : Type} {x : Result α} {f : α → Result β} {r : Fault} (h : x.andThen f = .stop r) :
    x = .stop r ∨ ∃ a, x = .done a ∧ f a = .stop r := by
  cases x with
  | done a => exact .inr ⟨a, rfl, h⟩
  | raise c => cases h
  | stop r' => cases h; exact .inl rfl

/-! ### What the pseudocode of a command comes to when it completes -/

/-- The completions of the ten commands: the command, the state it meets, and the contexts and result it leaves. -/
inductive Completed : Instr → State → State × Word → Prop where
  | write {u n : Nat} {v : Word} {s : State} {w w' : Writer} (hw : s.writers[u]? = some w)
      (h : w.put s.wcap n v.toNat = .done w') : Completed (.write u n v) s (s.setWriter u w', 0#32)
  | walign0 {u : Nat} {s : State} {w w' : Writer} (hw : s.writers[u]? = some w)
      (h : w.alignZero s.wcap = .done w') : Completed (.walign0 u) s (s.setWriter u w', 0#32)
  | walign1 {u : Nat} {s : State} {w w' : Writer} (hw : s.writers[u]? = some w)
      (h : w.alignOne s.wcap = .done w') : Completed (.walign1 u) s (s.setWriter u w', 0#32)
  | wlen {u : Nat} {s : State} {w : Writer} (hw : s.writers[u]? = some w) :
      Completed (.wlen u) s (s, BitVec.ofNat 32 w.len)
  | wbyte {u : Nat} {k : Word} {s : State} {w : Writer} {b : Byte} (hw : s.writers[u]? = some w)
      (hb : w.buf[k.toNat]? = some b) : Completed (.wbyte u k) s (s, b.setWidth 32)
  | wclear {u : Nat} {s : State} {w : Writer} (hw : s.writers[u]? = some w) :
      Completed (.wclear u) s (s.setWriter u Writer.empty, 0#32)
  | winsert {u src : Nat} {p : Word} {s : State} {d e : Writer} (hd : s.writers[u]? = some d)
      (he : s.writers[src]? = some e) (hne : src ≠ u) (ha : e.nheld = 0#3) (hp : p.toNat ≤ d.len)
      (hc : d.len + e.len ≤ s.wcap) :
      Completed (.winsert u src p) s (s.setWriter u { d with buf := splice d.buf e.buf p.toNat }, 0#32)
  | rbind {u : Nat} {base length : Word} {s : State} {r : Reader} (hr : s.readers[u]? = some r)
      (hb : base.toNat + length.toNat ≤ 2 ^ 32) :
      Completed (.rbind u base length) s (s.setReader u (Reader.bound base length), 0#32)
  | read {u n : Nat} {s : State} {r : Reader} {p : Reader × Word} (hr : s.readers[u]? = some r)
      (h : r.take s.xmem n = .done p) : Completed (.read u n) s (s.setReader u p.1, p.2)
  | pread {u n : Nat} {s : State} {r : Reader} {d : Word} (hr : s.readers[u]? = some r)
      (h : r.peek s.xmem n = .done d) : Completed (.pread u n) s (s, d)

/-- Every meaning is the common frame around a pseudocode that completes only as `Completed` says. -/
theorem exec_eq_command (i : Instr) (s : State) :
    ∃ x : Result (State × Word), exec i s = s.command x ∧ ∀ p, x = .done p → Completed i s p := by
  cases i with
  | write u n v =>
    refine ⟨_, rfl, fun p hp => ?_⟩
    obtain ⟨w, hw, h⟩ := State.withWriter_done hp
    obtain ⟨w', h1, h2⟩ := Result.andThen_eq_done h
    cases h2
    exact .write hw h1
  | walign0 u =>
    refine ⟨_, rfl, fun p hp => ?_⟩
    obtain ⟨w, hw, h⟩ := State.withWriter_done hp
    obtain ⟨w', h1, h2⟩ := Result.andThen_eq_done h
    cases h2
    exact .walign0 hw h1
  | walign1 u =>
    refine ⟨_, rfl, fun p hp => ?_⟩
    obtain ⟨w, hw, h⟩ := State.withWriter_done hp
    obtain ⟨w', h1, h2⟩ := Result.andThen_eq_done h
    cases h2
    exact .walign1 hw h1
  | wlen u =>
    refine ⟨_, rfl, fun p hp => ?_⟩
    obtain ⟨w, hw, h⟩ := State.withWriter_done hp
    cases h
    exact .wlen hw
  | wbyte u k =>
    refine ⟨_, rfl, fun p hp => ?_⟩
    obtain ⟨w, hw, h⟩ := State.withWriter_done hp
    split at h
    · cases h
    · next b hb => cases h; exact .wbyte hw hb
  | wclear u =>
    refine ⟨_, rfl, fun p hp => ?_⟩
    obtain ⟨w, hw, h⟩ := State.withWriter_done hp
    cases h
    exact .wclear hw
  | winsert u src q =>
    refine ⟨_, rfl, fun p hp => ?_⟩
    obtain ⟨d, hd, h⟩ := State.withWriter_done hp
    obtain ⟨e, he, h⟩ := State.withWriter_done h
    split at h
    · cases h
    · next hne =>
      split at h
      · cases h
      · next ha =>
        split at h
        · cases h
        · next hq =>
          split at h
          · cases h
          · next hc =>
            cases h
            exact .winsert hd he hne (by simpa [Writer.aligned] using ha) (by omega) (by omega)
  | rbind u base length =>
    refine ⟨_, rfl, fun p hp => ?_⟩
    obtain ⟨r, hr, h⟩ := State.withReader_done hp
    split at h
    · cases h
    · next hb => cases h; exact .rbind hr (by simp only [xmemSize] at hb; omega)
  | read u n =>
    refine ⟨_, rfl, fun p hp => ?_⟩
    obtain ⟨r, hr, h⟩ := State.withReader_done hp
    obtain ⟨q, h1, h2⟩ := Result.andThen_eq_done h
    cases h2
    exact .read hr h1
  | pread u n =>
    refine ⟨_, rfl, fun p hp => ?_⟩
    obtain ⟨r, hr, h⟩ := State.withReader_done hp
    obtain ⟨q, h1, h2⟩ := Result.andThen_eq_done h
    cases h2
    exact .pread hr h1

/-- The one inversion of `exec`: when it answers a next state, the engine was halted and answers the recorded cause, or
the command completes as `Completed` says, or it takes a fault. -/
theorem exec_next {i : Instr} {s t : State} (h : exec i s = .next t) :
    (s.fault.valid = true ∧ t = s.haltedReply) ∨
    (s.fault.valid = false ∧ ∃ p, Completed i s p ∧ t = State.finish p) ∨
    (s.fault.valid = false ∧ ∃ c, t = s.takeFault c) := by
  obtain ⟨x, hx, hc⟩ := exec_eq_command i s
  rw [hx] at h
  rcases State.command_next h with h | ⟨hv, p, hp, ht⟩ | ⟨hv, c, _, ht⟩
  · exact .inl h
  · exact .inr (.inl ⟨hv, p, hc p hp, ht⟩)
  · exact .inr (.inr ⟨hv, c, ht⟩)

/-- A command that completes leaves `FAULT`, `XMEM`, the parameters, the host and the trace as they were. -/
theorem Completed.keeps {i : Instr} {s : State} {p : State × Word} (h : Completed i s p) :
    p.1.fault = s.fault ∧ p.1.xmem = s.xmem ∧ p.1.wcap = s.wcap ∧ p.1.host = s.host ∧ p.1.trace = s.trace ∧
    p.1.writers.length = s.writers.length ∧ p.1.readers.length = s.readers.length := by
  cases h <;> simp

end Sys2Proof.Machine
end

