-- ==== Sys2Proof/Laws/Encoding.lean ====
section
/-! SUPPORT. The fields of a packed command word, and a command word as the pack of its fields (30_encoding.md R46). -/

namespace Sys2Proof

/-- Each field of a packed word is what was packed. -/
theorem pack_get (op u n s : BitVec 8) (a b : Word) :
    fieldOp (pack op u n s a b) = op ∧ fieldU (pack op u n s a b) = u ∧ fieldN (pack op u n s a b) = n ∧
    fieldS (pack op u n s a b) = s ∧ fieldA (pack op u n s a b) = a ∧ fieldB (pack op u n s a b) = b := by
  unfold fieldOp fieldU fieldN fieldS fieldA fieldB pack
  refine ⟨?_, ?_, ?_, ?_, ?_, ?_⟩ <;>
  · apply BitVec.eq_of_getLsbD_eq
    intro i hi
    simp only [BitVec.getLsbD_extractLsb', BitVec.getLsbD_append, hi, decide_true, Bool.true_and]
    repeat' split
    all_goals first | omega | (congr 1; omega)

@[simp] theorem fieldOp_pack (op u n s : BitVec 8) (a b : Word) : fieldOp (pack op u n s a b) = op := (pack_get ..).1
@[simp] theorem fieldU_pack (op u n s : BitVec 8) (a b : Word) : fieldU (pack op u n s a b) = u := (pack_get ..).2.1
@[simp] theorem fieldN_pack (op u n s : BitVec 8) (a b : Word) : fieldN (pack op u n s a b) = n := (pack_get ..).2.2.1
@[simp] theorem fieldS_pack (op u n s : BitVec 8) (a b : Word) : fieldS (pack op u n s a b) = s :=
  (pack_get ..).2.2.2.1
@[simp] theorem fieldA_pack (op u n s : BitVec 8) (a b : Word) : fieldA (pack op u n s a b) = a :=
  (pack_get ..).2.2.2.2.1
@[simp] theorem fieldB_pack (op u n s : BitVec 8) (a b : Word) : fieldB (pack op u n s a b) = b :=
  (pack_get ..).2.2.2.2.2

/-- A command word is the pack of its fields. -/
theorem pack_fields (c : CmdWord) :
    pack (fieldOp c) (fieldU c) (fieldN c) (fieldS c) (fieldA c) (fieldB c) = c := by
  unfold fieldOp fieldU fieldN fieldS fieldA fieldB pack
  apply BitVec.eq_of_getLsbD_eq
  intro i hi
  simp only [BitVec.getLsbD_append, BitVec.getLsbD_extractLsb']
  repeat' split
  all_goals
    rw [decide_eq_true (by omega), Bool.true_and]
    congr 1
    omega

/-- Two command words with the same fields are the same word. -/
theorem eq_of_fields {c d : CmdWord} (hop : fieldOp c = fieldOp d) (hu : fieldU c = fieldU d) (hn : fieldN c = fieldN d)
    (hs : fieldS c = fieldS d) (ha : fieldA c = fieldA d) (hb : fieldB c = fieldB d) : c = d := by
  rw [← pack_fields c, ← pack_fields d, hop, hu, hn, hs, ha, hb]

@[simp] theorem field8_toNat (b : BitVec 8) : field8 b.toNat = b := by simp [field8]

theorem toNat_field8 {x : Nat} (h : x < 256) : (field8 x).toNat = x := by
  simp only [field8, BitVec.toNat_ofNat]
  omega

/-- Each field of a masked word is the field masked by the field of the mask (30_encoding.md R49). -/
theorem fields_and (c m : CmdWord) :
    fieldOp (c &&& m) = fieldOp c &&& fieldOp m ∧ fieldU (c &&& m) = fieldU c &&& fieldU m ∧
    fieldN (c &&& m) = fieldN c &&& fieldN m ∧ fieldS (c &&& m) = fieldS c &&& fieldS m ∧
    fieldA (c &&& m) = fieldA c &&& fieldA m ∧ fieldB (c &&& m) = fieldB c &&& fieldB m := by
  unfold fieldOp fieldU fieldN fieldS fieldA fieldB
  refine ⟨?_, ?_, ?_, ?_, ?_, ?_⟩ <;>
  · apply BitVec.eq_of_getLsbD_eq
    intro i hi
    simp only [BitVec.getLsbD_extractLsb', BitVec.getLsbD_and, hi, decide_true, Bool.true_and]

end Sys2Proof
end

