-- ==== Sys2Proof/Laws/Memory.lean ====
section
/-! SUPPORT. The laws of the external memory: a read after a write, the canonical form kept by every write, equality of
canonical memories, and what a load of several bytes gives (20_memory.md R31, R34, R40). -/

namespace Sys2Proof.Machine

/-- A canonical memory from `lo` on is canonical from any lower address. -/
theorem Memory.wfFrom_mono {m : Memory} {lo lo' : Nat} (h : Memory.wfFrom lo m = true) (hle : lo' ≤ lo) :
    Memory.wfFrom lo' m = true := by
  cases m with
  | nil => rfl
  | cons c m =>
    obtain ⟨a, b⟩ := c
    simp only [Memory.wfFrom, Bool.and_eq_true, decide_eq_true_eq] at h ⊢
    exact ⟨⟨⟨by omega, h.1.1.2⟩, h.1.2⟩, h.2⟩

/-- A canonical memory from `lo` on lists no address below `lo`. -/
theorem Memory.get_of_lt {m : Memory} : ∀ {lo addr : Nat}, Memory.wfFrom lo m = true → addr < lo →
    m.get addr = Config.unlistedByte := by
  induction m with
  | nil => intros; rfl
  | cons c m ih =>
    obtain ⟨a, b⟩ := c
    intro lo addr h hlt
    simp only [Memory.wfFrom, Bool.and_eq_true, decide_eq_true_eq] at h
    have hne : addr ≠ a := by omega
    simp only [Memory.get, if_neg hne]
    exact ih h.2 (by omega)

/-- A cell in front of a canonical memory above its address keeps the form. -/
theorem Memory.wfFrom_cons {m : Memory} {lo a : Nat} {b : Byte} (h : Memory.wfFrom (a + 1) m = true) (hlo : lo ≤ a)
    (ha : a < xmemSize) : Memory.wfFrom lo (Memory.cons a b m) = true := by
  unfold Memory.cons
  split
  · exact Memory.wfFrom_mono h (by omega)
  · next hb => simp [Memory.wfFrom, h, hlo, ha, hb]

/-- What a memory reads as with a cell in front of it. -/
theorem Memory.get_cons {m : Memory} {a addr : Nat} {b : Byte} (h : Memory.wfFrom (a + 1) m = true) :
    (Memory.cons a b m).get addr = if addr = a then b else m.get addr := by
  unfold Memory.cons
  split
  · next hb =>
    split
    · next he => rw [he, hb]; exact Memory.get_of_lt h (by omega)
    · rfl
  · rfl

/-- A write keeps the canonical form. -/
theorem Memory.wfFrom_put {addr : Nat} {b : Byte} (ha : addr < xmemSize) :
    ∀ {m : Memory} {lo : Nat}, Memory.wfFrom lo m = true → lo ≤ addr → Memory.wfFrom lo (m.put addr b) = true := by
  intro m
  induction m with
  | nil => intro lo _ hlo; exact Memory.wfFrom_cons rfl hlo ha
  | cons c m ih =>
    obtain ⟨a, d⟩ := c
    intro lo h hlo
    have h' := h
    simp only [Memory.wfFrom, Bool.and_eq_true, decide_eq_true_eq] at h
    unfold Memory.put
    split
    · next hlt =>
      refine Memory.wfFrom_cons ?_ hlo ha
      simp only [Memory.wfFrom, Bool.and_eq_true, decide_eq_true_eq]
      exact ⟨⟨⟨by omega, h.1.1.2⟩, h.1.2⟩, h.2⟩
    · split
      · next he => subst he; exact Memory.wfFrom_cons h.2 hlo ha
      · next hn he =>
        simp only [Memory.wfFrom, Bool.and_eq_true, decide_eq_true_eq]
        exact ⟨⟨⟨h.1.1.1, h.1.1.2⟩, h.1.2⟩, ih h.2 (by omega)⟩

/-- A write of a byte of `XMEM` keeps the canonical form (20_memory.md R44). -/
theorem Memory.wf_put {m : Memory} {addr : Nat} {b : Byte} (h : m.wf = true) (ha : addr < xmemSize) :
    (m.put addr b).wf = true := Memory.wfFrom_put ha h (Nat.zero_le _)

/-- A read after a write: the byte written at its address, the old byte elsewhere (20_memory.md R40). -/
theorem Memory.get_putFrom {addr : Nat} {b : Byte} :
    ∀ {m : Memory} {lo : Nat}, Memory.wfFrom lo m = true → ∀ x, (m.put addr b).get x = if x = addr then b else m.get x := by
  intro m
  induction m with
  | nil => intro lo _ x; exact Memory.get_cons rfl
  | cons c m ih =>
    obtain ⟨a, d⟩ := c
    intro lo h x
    simp only [Memory.wfFrom, Bool.and_eq_true, decide_eq_true_eq] at h
    unfold Memory.put
    split
    · next hlt =>
      refine Memory.get_cons ?_
      simp only [Memory.wfFrom, Bool.and_eq_true, decide_eq_true_eq]
      exact ⟨⟨⟨by omega, h.1.1.2⟩, h.1.2⟩, h.2⟩
    · split
      · next he =>
        subst he
        rw [Memory.get_cons h.2]
        split
        · rfl
        · next hx => simp [Memory.get, hx]
      · next hn he =>
        simp only [Memory.get]
        split
        · next hx => rw [if_neg (by omega)]
        · exact ih h.2 x

/-- A read after a write of a canonical memory (20_memory.md R40). -/
theorem Memory.get_put {m : Memory} {addr : Nat} {b : Byte} (h : m.wf = true) (x : Nat) :
    (m.put addr b).get x = if x = addr then b else m.get x := Memory.get_putFrom h x

/-- Canonical memories that read the same everywhere are the same list. -/
theorem Memory.ext_get {m : Memory} : ∀ {m' : Memory} {lo : Nat}, Memory.wfFrom lo m = true → Memory.wfFrom lo m' = true →
    (∀ x, m.get x = m'.get x) → m = m' := by
  induction m with
  | nil =>
    intro m' lo _ h' hx
    cases m' with
    | nil => rfl
    | cons c m' =>
      obtain ⟨a, b⟩ := c
      simp only [Memory.wfFrom, Bool.and_eq_true, decide_eq_true_eq] at h'
      have := hx a
      simp only [Memory.get, if_true] at this
      exact absurd this.symm h'.1.2
  | cons c m ih =>
    obtain ⟨a, b⟩ := c
    intro m' lo h h' hx
    have hw := h
    simp only [Memory.wfFrom, Bool.and_eq_true, decide_eq_true_eq] at h
    cases m' with
    | nil =>
      have := hx a
      simp only [Memory.get, if_true] at this
      exact absurd this h.1.2
    | cons c' m' =>
      obtain ⟨a', b'⟩ := c'
      have hw' := h'
      simp only [Memory.wfFrom, Bool.and_eq_true, decide_eq_true_eq] at h'
      have haa : a = a' := by
        rcases Nat.lt_trichotomy a a' with hl | he | hl
        · have h1 := hx a
          have h2 : Memory.get ((a', b') :: m') a = Config.unlistedByte :=
            Memory.get_of_lt (lo := a') (by simp [Memory.wfFrom, h'.1.1.2, h'.1.2, h'.2]) hl
          rw [h2] at h1
          simp only [Memory.get, if_true] at h1
          exact absurd h1 h.1.2
        · exact he
        · have h1 := hx a'
          have h2 : Memory.get ((a, b) :: m) a' = Config.unlistedByte :=
            Memory.get_of_lt (lo := a) (by simp [Memory.wfFrom, h.1.1.2, h.1.2, h.2]) hl
          rw [h2] at h1
          simp only [Memory.get, if_true] at h1
          exact absurd h1.symm h'.1.2
      subst haa
      have hb : b = b' := by have := hx a; simpa [Memory.get] using this
      subst hb
      congr 1
      refine ih h.2 h'.2 fun x => ?_
      by_cases hxa : x = a
      · subst hxa
        rw [Memory.get_of_lt h.2 (by omega), Memory.get_of_lt h'.2 (by omega)]
      · have := hx x
        simpa [Memory.get, hxa] using this

/-! ### Loads -/

/-- A load of bytes that all exist gives the word that shifts them in one after the other (42_reader.md R83 step 3). -/
theorem Memory.load_eq (m : Memory) : ∀ (count addr acc : Nat), addr + count ≤ xmemSize →
    m.load addr count acc =
      some ((List.range count).foldl (fun x i => 256 * x + (m.get (addr + i)).toNat) acc) := by
  intro count
  induction count with
  | zero => intro addr acc _; rfl
  | succ k ih =>
    intro addr acc h
    have hlt : addr < xmemSize := by omega
    have hb : (m.get addr).toNat < 2 ^ 8 := (m.get addr).isLt
    have hacc : (acc <<< 8) ||| (m.get addr).toNat = 256 * acc + (m.get addr).toNat := by
      rw [← Nat.shiftLeft_add_eq_or_of_lt hb, Nat.shiftLeft_eq]; omega
    simp only [Memory.load, if_pos hlt, hacc, ih (addr + 1) _ (by omega), List.range_succ_eq_map, List.foldl_cons,
      List.foldl_map, Nat.add_zero]
    have e : ∀ i, addr + 1 + i = addr + i.succ := fun i => by omega
    simp only [e]

/-- A load stops only at an address that does not exist (log 6). -/
theorem Memory.load_eq_none (m : Memory) : ∀ (count addr acc : Nat), m.load addr count acc = none →
    xmemSize < addr + count := by
  intro count
  induction count with
  | zero => intro addr acc h; cases h
  | succ k ih =>
    intro addr acc h
    unfold Memory.load at h
    split at h
    · have := ih _ _ h; omega
    · omega

/-- A load reads nothing but its own bytes. -/
theorem Memory.load_congr {m m' : Memory} : ∀ (count addr acc : Nat),
    (∀ i, i < count → m.get (addr + i) = m'.get (addr + i)) → m.load addr count acc = m'.load addr count acc := by
  intro count
  induction count with
  | zero => intros; rfl
  | succ k ih =>
    intro addr acc h
    have h0 : m.get addr = m'.get addr := h 0 (by omega)
    unfold Memory.load
    rw [h0]
    split
    · refine ih _ _ fun i hi => ?_
      have := h (i + 1) (by omega)
      rwa [show addr + (i + 1) = addr + 1 + i by omega] at this
    · rfl

end Sys2Proof.Machine
end

