-- ==== Sys2Proof/Laws/PerInstr.lean ====
section
/-! SUPPORT. Statements made once per command: its opcode stands in the top byte of its command word
(30_encoding.md R46, R49). -/

namespace Sys2Proof.Laws.OpcodeByte

/-- The top byte of the command word of `i` is its opcode. -/
def Statement (i : Instr) : Prop := fieldOp (encode i) = opcode i

theorem write (u n : Nat) (value : Word) : Statement (.write u n value) := fieldOp_pack ..
theorem walign0 (u : Nat) : Statement (.walign0 u) := fieldOp_pack ..
theorem walign1 (u : Nat) : Statement (.walign1 u) := fieldOp_pack ..
theorem wlen (u : Nat) : Statement (.wlen u) := fieldOp_pack ..
theorem wbyte (u : Nat) (index : Word) : Statement (.wbyte u index) := fieldOp_pack ..
theorem wclear (u : Nat) : Statement (.wclear u) := fieldOp_pack ..
theorem winsert (u src : Nat) (position : Word) : Statement (.winsert u src position) := fieldOp_pack ..
theorem rbind (u : Nat) (base length : Word) : Statement (.rbind u base length) := fieldOp_pack ..
theorem read (u n : Nat) : Statement (.read u n) := fieldOp_pack ..
theorem pread (u n : Nat) : Statement (.pread u n) := fieldOp_pack ..

end Sys2Proof.Laws.OpcodeByte
end

