-- ==== Sys2Proof/Laws/Raises.lean ====
section
/-! SUPPORT. From the pseudocode of a command to its meaning, one pair of lemmas a command: when it raises a cause, and
the state it leaves when it completes. -/

namespace Sys2Proof.Machine

/-! ### When a command raises a cause (60_exceptions.md R111) -/

/-- A command on a running engine raises a cause exactly when its pseudocode does. -/
theorem raises_iff {i : Instr} {s : State} {x : Result (State × Word)} {c : Cause} (hx : exec i s = s.command x)
    (hv : s.fault.valid = false) : Raises i s c ↔ x = .raise c := by
  obtain ⟨y, hy, hd⟩ := exec_eq_command i s
  constructor
  · intro h
    have h' : s.command x = .next (s.takeFault c) := hx.symm.trans h
    cases x with
    | raise d => exact (State.command_eq_takeFault hv (fun p hp => by cases hp)).mp h'
    | stop f => rw [State.command_stop f hv] at h'; cases h'
    | done p =>
      rw [hy] at hx
      cases y with
      | done q =>
        have hk := (hd q rfl).keeps.1
        rw [← hx, State.command_done q hv] at h'
        have := congrArg (fun o => match o with | .next t => t.fault.valid | _ => false) h'
        simp [State.finish, hk, hv] at this
      | raise d =>
        rw [State.command_raise d hv, State.command_done p hv] at hx
        have := congrArg (fun o => match o with | .next t => t.trace.getLast? | _ => none) hx
        simp [State.finish, Response.completed, Response.faulted] at this
      | stop f => rw [State.command_stop f hv, State.command_done p hv] at hx; cases hx
  · rintro rfl
    exact hx.trans (State.command_raise c hv)

theorem Result.andThen_eq_raise {α β : Type} {x : Result α} {f : α → Result β} {c : Cause}
    (hf : ∀ a, f a ≠ .raise c) : x.andThen f = .raise c ↔ x = .raise c := by
  cases x <;> simp [hf]

theorem raises_write {s : State} {u n : Nat} {v : Word} {w : Writer} {c : Cause} (hv : s.fault.valid = false)
    (hw : s.writers[u]? = some w) : Raises (.write u n v) s c ↔ w.put s.wcap n v.toNat = .raise c := by
  refine (raises_iff rfl hv).trans ?_
  rw [State.withWriter_some hw]
  exact Result.andThen_eq_raise (by simp)

theorem raises_walign0 {s : State} {u : Nat} {w : Writer} {c : Cause} (hv : s.fault.valid = false)
    (hw : s.writers[u]? = some w) : Raises (.walign0 u) s c ↔ w.alignZero s.wcap = .raise c := by
  refine (raises_iff rfl hv).trans ?_
  rw [State.withWriter_some hw]
  exact Result.andThen_eq_raise (by simp)

theorem raises_walign1 {s : State} {u : Nat} {w : Writer} {c : Cause} (hv : s.fault.valid = false)
    (hw : s.writers[u]? = some w) : Raises (.walign1 u) s c ↔ w.alignOne s.wcap = .raise c := by
  refine (raises_iff rfl hv).trans ?_
  rw [State.withWriter_some hw]
  exact Result.andThen_eq_raise (by simp)

theorem raises_read {s : State} {u n : Nat} {r : Reader} {c : Cause} (hv : s.fault.valid = false)
    (hr : s.readers[u]? = some r) : Raises (.read u n) s c ↔ r.take s.xmem n = .raise c := by
  refine (raises_iff rfl hv).trans ?_
  rw [State.withReader_some hr]
  exact Result.andThen_eq_raise (by simp)

theorem raises_pread {s : State} {u n : Nat} {r : Reader} {c : Cause} (hv : s.fault.valid = false)
    (hr : s.readers[u]? = some r) : Raises (.pread u n) s c ↔ r.peek s.xmem n = .raise c := by
  refine (raises_iff rfl hv).trans ?_
  rw [State.withReader_some hr]
  exact Result.andThen_eq_raise (by simp)

/-! ### The state a command leaves when its pseudocode is done (30_encoding.md R52) -/

theorem exec_write_done {s : State} {u n : Nat} {v : Word} {w w' : Writer} (hv : s.fault.valid = false)
    (hw : s.writers[u]? = some w) (h : w.put s.wcap n v.toNat = .done w') :
    exec (.write u n v) s = .next ((s.setWriter u w').respond (Response.completed 0#32)) := by
  show s.command _ = _
  rw [State.withWriter_some hw, h, Result.andThen_done, State.command_done _ hv]
  rfl

theorem exec_walign0_done {s : State} {u : Nat} {w w' : Writer} (hv : s.fault.valid = false)
    (hw : s.writers[u]? = some w) (h : w.alignZero s.wcap = .done w') :
    exec (.walign0 u) s = .next ((s.setWriter u w').respond (Response.completed 0#32)) := by
  show s.command _ = _
  rw [State.withWriter_some hw, h, Result.andThen_done, State.command_done _ hv]
  rfl

theorem exec_walign1_done {s : State} {u : Nat} {w w' : Writer} (hv : s.fault.valid = false)
    (hw : s.writers[u]? = some w) (h : w.alignOne s.wcap = .done w') :
    exec (.walign1 u) s = .next ((s.setWriter u w').respond (Response.completed 0#32)) := by
  show s.command _ = _
  rw [State.withWriter_some hw, h, Result.andThen_done, State.command_done _ hv]
  rfl

theorem exec_read_done {s : State} {u n : Nat} {r : Reader} {p : Reader × Word} (hv : s.fault.valid = false)
    (hr : s.readers[u]? = some r) (h : r.take s.xmem n = .done p) :
    exec (.read u n) s = .next ((s.setReader u p.1).respond (Response.completed p.2)) := by
  show s.command _ = _
  rw [State.withReader_some hr, h, Result.andThen_done, State.command_done _ hv]
  rfl

theorem exec_pread_done {s : State} {u n : Nat} {r : Reader} {d : Word} (hv : s.fault.valid = false)
    (hr : s.readers[u]? = some r) (h : r.peek s.xmem n = .done d) :
    exec (.pread u n) s = .next (s.respond (Response.completed d)) := by
  show s.command _ = _
  rw [State.withReader_some hr, h, Result.andThen_done, State.command_done _ hv]
  rfl

end Sys2Proof.Machine
end

