-- ==== Sys2Proof/Laws/Reader.lean ====
section
/-! SUPPORT. What the pseudocode of `READ` and `PREAD` does to one reader context: the cases of `Reader.take`, and its
result as bits of the stream (42_reader.md R82 to R84, 49_laws.md R99 to R102). -/

namespace Sys2Proof.Machine

/-! ### The counts of 42_reader.md R82 -/

theorem bytesToLoad_eq {rem : Nat} (h : 1 ≤ rem) : bytesToLoad rem = (rem + 7) / 8 := by
  simp only [bytesToLoad, Nat.shiftRight_eq_div_pow]
  omega

/-- `nh = 8 * nb - rem` (42_reader.md R82). -/
theorem leftoverCount_eq {rem : Nat} (h : 1 ≤ rem) (h32 : rem ≤ 32) :
    leftoverCount rem = 8 * ((rem + 7) / 8) - rem := by
  simp only [leftoverCount]
  omega

/-- The bytes needed are in the buffer exactly when the bits asked are left (42_reader.md R82). -/
theorem Reader.fits_iff (r : Reader) (n : Nat) (hc : r.cursor.toNat ≤ r.blen.toNat) (h : r.nheld.toNat < n) :
    r.cursor.toNat + (n - r.nheld.toNat + 7) / 8 ≤ r.blen.toNat ↔ n ≤ r.left := by
  simp only [Reader.left]
  omega

/-- `left = 8 * blen - pos` (42_reader.md R82, 49_laws.md R99). -/
theorem Reader.left_eq (r : Reader) (h : r.Inv) : r.left = 8 * r.blen.toNat - r.pos ∧ r.pos ≤ 8 * r.blen.toNat := by
  obtain ⟨_, hc, hn⟩ := h
  have h8 : r.nheld.toNat < 8 := r.nheld.isLt
  have : r.nheld.toNat = 0 ∨ 1 ≤ r.cursor.toNat := by
    by_cases h0 : r.nheld = 0#3
    · exact .inl (by rw [h0]; rfl)
    · exact .inr (hn h0)
  simp only [Reader.left, Reader.pos]
  omega

/-! ### `Reader.take`: everything it can do -/

theorem Reader.take_width {r : Reader} {x : Memory} {n : Nat} (h : 32 < n) : r.take x n = .raise .width := by
  simp [Reader.take, h]

/-- A read served from the held bits (42_reader.md R83 step 1). -/
theorem Reader.take_held {r : Reader} {x : Memory} {n : Nat} (h : n ≤ r.nheld.toNat) :
    r.take x n = .done ({ r with nheld := BitVec.ofNat 3 (r.nheld.toNat - n) },
      BitVec.ofNat 32 (r.held.toNat / 2 ^ (r.nheld.toNat - n) % 2 ^ n)) := by
  have h8 : r.nheld.toNat < 8 := r.nheld.isLt
  simp only [Reader.take]
  rw [if_neg (by omega), if_pos h, Nat.shiftRight_eq_div_pow, mask, Nat.and_two_pow_sub_one_eq_mod]

theorem Reader.take_overrun {r : Reader} {x : Memory} {n : Nat} (hn : n ≤ 32) (h : r.nheld.toNat < n)
    (hc : r.blen.toNat < r.cursor.toNat + (n - r.nheld.toNat + 7) / 8) : r.take x n = .raise .overrun := by
  simp only [Reader.take, bytesToLoad_eq (show 1 ≤ n - r.nheld.toNat by omega)]
  rw [if_neg (by omega), if_neg (by omega), if_pos hc]

/-- The big-endian number of loaded bytes is below `256 ^ count`. -/
theorem Reader.wordAt_lt (r : Reader) (x : Memory) (c count : Nat) : r.wordAt x c count < 2 ^ (8 * count) := by
  induction count with
  | zero => simp [Reader.wordAt]
  | succ k ih =>
    simp only [Reader.wordAt, List.range_succ, List.foldl_append, List.foldl_cons, List.foldl_nil] at ih ⊢
    have hb : (r.byteAt x (c + k)).toNat < 256 := (r.byteAt x (c + k)).isLt
    rw [show 8 * (k + 1) = 8 * k + 8 by omega, Nat.pow_add]
    omega

/-- A read that loads bytes (42_reader.md R83 steps 2 to 4). -/
theorem Reader.take_load {r : Reader} {x : Memory} {n : Nat} (hn : n ≤ 32) (h : r.nheld.toNat < n)
    (hb : r.base.toNat + r.blen.toNat ≤ 2 ^ 32)
    (hc : r.cursor.toNat + (n - r.nheld.toNat + 7) / 8 ≤ r.blen.toNat) :
    r.take x n = .done ({ r with
        cursor := BitVec.ofNat 32 (r.cursor.toNat + (n - r.nheld.toNat + 7) / 8)
        held := BitVec.ofNat 8 (r.wordAt x r.cursor.toNat ((n - r.nheld.toNat + 7) / 8))
        nheld := BitVec.ofNat 3 (8 * ((n - r.nheld.toNat + 7) / 8) - (n - r.nheld.toNat)) },
      BitVec.ofNat 32 (r.held.toNat % 2 ^ r.nheld.toNat * 2 ^ (n - r.nheld.toNat) +
        r.wordAt x r.cursor.toNat ((n - r.nheld.toNat + 7) / 8) /
          2 ^ (8 * ((n - r.nheld.toNat + 7) / 8) - (n - r.nheld.toNat)))) := by
  have h1 : 1 ≤ n - r.nheld.toNat := by omega
  have hload := Memory.load_eq x ((n - r.nheld.toNat + 7) / 8) (r.base.toNat + r.cursor.toNat) 0
    (by simp only [xmemSize]; omega)
  have hw : (List.range ((n - r.nheld.toNat + 7) / 8)).foldl
      (fun acc i => 256 * acc + (x.get (r.base.toNat + r.cursor.toNat + i)).toNat) 0 =
      r.wordAt x r.cursor.toNat ((n - r.nheld.toNat + 7) / 8) := by
    simp only [Reader.wordAt, Reader.byteAt, Nat.add_assoc]
  simp only [Reader.take, bytesToLoad_eq h1, leftoverCount_eq h1 (show n - r.nheld.toNat ≤ 32 by omega)]
  rw [if_neg (by omega), if_neg (by omega), if_neg (by omega), hload, hw]
  have hlt : r.wordAt x r.cursor.toNat ((n - r.nheld.toNat + 7) / 8) /
      2 ^ (8 * ((n - r.nheld.toNat + 7) / 8) - (n - r.nheld.toNat)) < 2 ^ (n - r.nheld.toNat) := by
    rw [Nat.div_lt_iff_lt_mul (Nat.two_pow_pos _), ← Nat.pow_add]
    refine Nat.lt_of_lt_of_le (r.wordAt_lt x _ _) (Nat.pow_le_pow_right (by omega) (by omega))
  simp only [mask, Nat.and_two_pow_sub_one_eq_mod, Nat.shiftLeft_eq, Nat.shiftRight_eq_div_pow]
  rw [Nat.mul_comm (r.held.toNat % _), ← Nat.two_pow_add_eq_or_of_lt hlt]

/-- When a read completes over a binding inside `XMEM`: one of the two ways. -/
theorem Reader.take_done {r : Reader} {x : Memory} {n : Nat} {p : Reader × Word}
    (h : r.take x n = .done p) :
    n ≤ 32 ∧ (n ≤ r.nheld.toNat ∨
      (r.nheld.toNat < n ∧ r.cursor.toNat + (n - r.nheld.toNat + 7) / 8 ≤ r.blen.toNat)) := by
  rcases Nat.lt_or_ge 32 n with hn | hn
  · rw [Reader.take_width hn] at h; cases h
  refine ⟨hn, ?_⟩
  rcases Nat.lt_or_ge r.nheld.toNat n with hh | hh
  · rcases Nat.lt_or_ge r.blen.toNat (r.cursor.toNat + (n - r.nheld.toNat + 7) / 8) with hc | hc
    · rw [Reader.take_overrun hn hh hc] at h; cases h
    · exact .inr ⟨hh, hc⟩
  · exact .inl hh

/-- A read over a binding inside `XMEM` never leaves the model (log 6). -/
theorem Reader.take_ne_stop {r : Reader} {x : Memory} {n : Nat} (hb : r.base.toNat + r.blen.toNat ≤ 2 ^ 32)
    (f : Fault) : r.take x n ≠ .stop f := by
  rcases Nat.lt_or_ge 32 n with hn | hn
  · rw [Reader.take_width hn]; simp
  rcases Nat.lt_or_ge r.nheld.toNat n with hh | hh
  · rcases Nat.lt_or_ge r.blen.toNat (r.cursor.toNat + (n - r.nheld.toNat + 7) / 8) with hc | hc
    · rw [Reader.take_overrun hn hh hc]; simp
    · rw [Reader.take_load hn hh hb hc]; simp
  · rw [Reader.take_held hh]; simp

/-- A read keeps the binding (10_state.md R10). -/
theorem Reader.take_binding {r : Reader} {x : Memory} {n : Nat} {p : Reader × Word} (h : r.take x n = .done p) :
    p.1.base = r.base ∧ p.1.blen = r.blen := by
  simp only [Reader.take] at h
  split at h
  · cases h
  split at h
  · cases h; exact ⟨rfl, rfl⟩
  split at h
  · cases h
  split at h
  · cases h
  · cases h; exact ⟨rfl, rfl⟩

/-- A read sees no byte of `XMEM` outside its bound buffer (20_memory.md R31, R39). -/
theorem Reader.take_congr {r : Reader} {x x' : Memory} (n : Nat)
    (h : ∀ k, k < r.blen.toNat → r.byteAt x k = r.byteAt x' k) : r.take x n = r.take x' n := by
  simp only [Reader.take]
  split
  · rfl
  split
  · rfl
  split
  · rfl
  · next hc =>
    rw [Memory.load_congr]
    intro i hi
    have := h (r.cursor.toNat + i) (by omega)
    simpa [Reader.byteAt, Nat.add_assoc] using this

/-- The result of a read fits its width (30_encoding.md R52). -/
theorem Reader.take_lt {r : Reader} {x : Memory} {n : Nat} {p : Reader × Word} (hb : r.base.toNat + r.blen.toNat ≤ 2 ^ 32)
    (h : r.take x n = .done p) : p.2.toNat < 2 ^ n := by
  obtain ⟨hn, hh | ⟨hh, hc⟩⟩ := Reader.take_done h
  · rw [Reader.take_held hh] at h
    cases h
    rw [BitVec.toNat_ofNat]
    exact Nat.lt_of_le_of_lt (Nat.mod_le _ _) (Nat.mod_lt _ (Nat.two_pow_pos _))
  · rw [Reader.take_load hn hh hb hc] at h
    cases h
    rw [BitVec.toNat_ofNat]
    refine Nat.lt_of_le_of_lt (Nat.mod_le _ _) ?_
    have h1 : r.held.toNat % 2 ^ r.nheld.toNat < 2 ^ r.nheld.toNat := Nat.mod_lt _ (Nat.two_pow_pos _)
    have h2 : r.wordAt x r.cursor.toNat ((n - r.nheld.toNat + 7) / 8) /
        2 ^ (8 * ((n - r.nheld.toNat + 7) / 8) - (n - r.nheld.toNat)) < 2 ^ (n - r.nheld.toNat) := by
      rw [Nat.div_lt_iff_lt_mul (Nat.two_pow_pos _), ← Nat.pow_add]
      refine Nat.lt_of_lt_of_le (r.wordAt_lt x _ _) (Nat.pow_le_pow_right (by omega) (by omega))
    calc _ < r.held.toNat % 2 ^ r.nheld.toNat * 2 ^ (n - r.nheld.toNat) + 2 ^ (n - r.nheld.toNat) := by omega
      _ = (r.held.toNat % 2 ^ r.nheld.toNat + 1) * 2 ^ (n - r.nheld.toNat) := by rw [Nat.add_mul, Nat.one_mul]
      _ ≤ 2 ^ r.nheld.toNat * 2 ^ (n - r.nheld.toNat) := Nat.mul_le_mul_right _ h1
      _ = 2 ^ n := by rw [← Nat.pow_add]; congr 1; omega

/-- A read of at most 32 bits that are left raises nothing (60_exceptions.md R125). -/
theorem Reader.take_ne_raise {r : Reader} {x : Memory} {n : Nat} (hn : n ≤ 32) (hl : n ≤ r.left)
    (hc : r.cursor.toNat ≤ r.blen.toNat) (c : Cause) : r.take x n ≠ .raise c := by
  intro h
  simp only [Reader.take] at h
  split at h
  · omega
  split at h
  · cases h
  split at h
  · rw [bytesToLoad_eq (by omega)] at *
    simp only [Reader.left] at hl
    omega
  split at h <;> cases h

/-- A read of at most 32 bits that are left completes (42_reader.md R83). -/
theorem Reader.take_completes {r : Reader} {x : Memory} {n : Nat} (hi : r.Inv) (hn : n ≤ 32) (hl : n ≤ r.left) :
    ∃ p, r.take x n = .done p := by
  cases h : r.take x n with
  | done p => exact ⟨p, rfl⟩
  | raise c => exact absurd h (Reader.take_ne_raise hn hl hi.2.1 c)
  | stop f => exact absurd h (Reader.take_ne_stop hi.1 f)

/-! ### `Reader.peek` (43_lookahead.md R91) -/

theorem Reader.peek_width {r : Reader} {x : Memory} {n : Nat} (h : 32 < n) : r.peek x n = .raise .width := by
  simp [Reader.peek, h]

/-- A lookahead of a legal width is the read of `min(n, left)` bits, its result shifted left by the shortfall. -/
theorem Reader.peek_eq {r : Reader} {x : Memory} {n : Nat} (h : n ≤ 32) :
    r.peek x n = (r.take x (min n r.left)).andThen
      fun p => .done (BitVec.ofNat 32 (p.2.toNat <<< (n - min n r.left))) := by
  simp only [Reader.peek]
  rw [if_neg (by omega)]

/-! ### What a read delivers, as bits of the stream (49_laws.md R99, R101) -/

/-- The stream from the read position on: the held bits, then the bytes from the cursor on. -/
theorem Reader.stream_drop_pos {r : Reader} {x : Memory} (hi : r.Inv) (hf : r.Fresh x) :
    (r.stream x).drop r.pos = be r.nheld.toNat r.held.toNat ++ (r.stream x).drop (8 * r.cursor.toNat) := by
  obtain ⟨_, h2, h3⟩ := hi
  have h8 := r.nheld.isLt
  by_cases h : r.nheld = 0#3
  · simp [Reader.pos, h]
  · have hc := h3 h
    have hn : r.nheld.toNat ≠ 0 := fun h0 => h (BitVec.eq_of_toNat_eq h0)
    have hlen : r.cursor.toNat - 1 < ((List.range r.blen.toNat).map fun k => r.byteAt x k).length := by simp; omega
    rw [show r.pos = 8 * (r.cursor.toNat - 1) + (8 - r.nheld.toNat) by simp only [Reader.pos]; omega,
      ← List.drop_drop, Reader.stream, bitsOf_drop, bitsOf_drop, List.drop_eq_getElem_cons hlen, bitsOf_cons,
      List.drop_append_of_le_length (by simp), be_drop (by omega)]
    simp only [List.getElem_map, List.getElem_range]
    rw [show 8 - (8 - r.nheld.toNat) = r.nheld.toNat by omega,
      show r.cursor.toNat - 1 + 1 = r.cursor.toNat by omega]
    congr 3
    rw [hf h, Reader.byteAt]
    congr 2
    omega

/-- The bits of `k` bytes of the stream are the bits of their big-endian number (20_memory.md R34). -/
theorem Reader.stream_bytes {r : Reader} {x : Memory} {c k : Nat} (h : c + k ≤ r.blen.toNat) :
    ((r.stream x).drop (8 * c)).take (8 * k) = be (8 * k) (r.wordAt x c k) := by
  have e : (((List.range r.blen.toNat).map fun k => r.byteAt x k).drop c).take k =
      (List.range k).map fun i => r.byteAt x (c + i) := by
    apply List.ext_getElem
    · simp; omega
    · intro i h1 h2; simp
  rw [Reader.stream, bitsOf_drop, bitsOf_take, e, ← be_val (bitsOf _)]
  simp only [bitsOf_length, List.length_map, List.length_range]
  rw [val_bitsOf, List.foldl_map]
  rfl

end Sys2Proof.Machine
end

