-- ==== Sys2Proof/Laws/Writer.lean ====
section
/-! SUPPORT. What the pseudocode of the writer commands does to one writer context: the cases of `Writer.put`, its effect
on the held byte and on the logical bit string (40_writer.md R61 to R65, 49_laws.md R95 to R98). -/

namespace Sys2Proof.Machine

/-! ### The held byte -/

/-- The writer invariant on `held`, as a remainder: the `8 - h` low bits are zero (10_state.md R15). -/
theorem held_inv_iff (held : BitVec 8) (h : BitVec 3) :
    held &&& ((0xFF#8) >>> h.toNat) = 0#8 ↔ held.toNat % 2 ^ (8 - h.toNat) = 0 := by
  have hh : h.toNat < 8 := h.isLt
  have hm : ∀ k : Nat, k < 8 → 255 >>> k = 2 ^ (8 - k) - 1 := by decide
  have e : (held &&& ((0xFF#8) >>> h.toNat)).toNat = held.toNat % 2 ^ (8 - h.toNat) := by
    rw [BitVec.toNat_and, BitVec.toNat_ushiftRight, show (0xFF#8).toNat = 255 from rfl, hm _ hh,
      Nat.and_two_pow_sub_one_eq_mod]
  constructor
  · intro hz
    rw [← e, hz]
    rfl
  · intro hz
    apply BitVec.eq_of_toNat_eq
    rw [e, hz]
    rfl

/-- Under the writer invariant the held byte is its `h` valid bits moved to the top. -/
theorem held_eq_mul {held : BitVec 8} {h : BitVec 3} (hi : held &&& ((0xFF#8) >>> h.toNat) = 0#8) :
    ∃ q, q < 2 ^ h.toNat ∧ held.toNat = 2 ^ (8 - h.toNat) * q := by
  have hz := (held_inv_iff held h).mp hi
  have hh : h.toNat < 8 := h.isLt
  have hlt : held.toNat < 2 ^ 8 := held.isLt
  refine ⟨held.toNat / 2 ^ (8 - h.toNat), ?_, ?_⟩
  · rw [Nat.div_lt_iff_lt_mul (Nat.two_pow_pos _), ← Nat.pow_add]
    rwa [show h.toNat + (8 - h.toNat) = 8 by omega]
  · have := Nat.div_add_mod held.toNat (2 ^ (8 - h.toNat))
    omega

/-- The next held byte, as arithmetic (40_writer.md R61). -/
theorem nextHeldByte_toNat (v nh : Nat) :
    (nextHeldByte v nh).toNat = v % 2 ^ nh * 2 ^ (8 - nh) % 256 := by
  unfold nextHeldByte
  split
  · next h => subst h; simp [Nat.mod_one]
  · rw [BitVec.toNat_ofNat, mask, Nat.and_two_pow_sub_one_eq_mod, Nat.shiftLeft_eq]

theorem nextHeldByte_toNat_of_pos {v nh : Nat} (h0 : 0 < nh) (h8 : nh ≤ 8) :
    (nextHeldByte v nh).toNat = 2 ^ (8 - nh) * (v % 2 ^ nh) := by
  rw [nextHeldByte_toNat, Nat.mul_comm, Nat.mod_eq_of_lt]
  have h1 : v % 2 ^ nh < 2 ^ nh := Nat.mod_lt _ (Nat.two_pow_pos _)
  calc 2 ^ (8 - nh) * (v % 2 ^ nh) < 2 ^ (8 - nh) * 2 ^ nh := Nat.mul_lt_mul_of_pos_left h1 (Nat.two_pow_pos _)
    _ = 2 ^ 8 := by rw [← Nat.pow_add]; congr 1; omega

@[simp] theorem nextHeldByte_zero (v : Nat) : nextHeldByte v 0 = 0#8 := rfl

/-- The `nh` high bits of the next held byte are the `nh` low bits of the value. -/
theorem be_nextHeldByte {v nh : Nat} (h8 : nh < 8) : (be 8 (nextHeldByte v nh).toNat).take nh = be nh v := by
  rw [be_take (by omega)]
  rcases Nat.eq_zero_or_pos nh with h0 | h0
  · subst h0; rfl
  · rw [nextHeldByte_toNat_of_pos h0 (by omega), Nat.shiftRight_eq_div_pow,
      Nat.mul_div_cancel_left _ (Nat.two_pow_pos _), be_mod]

/-- A value fits its width when nothing is left after shifting it out (40_writer.md R62). -/
theorem shiftRight_ne_zero_iff (v n : Nat) : v >>> n ≠ 0 ↔ 2 ^ n ≤ v := by
  rw [Nat.shiftRight_eq_div_pow, Ne, Nat.div_eq_zero_iff]
  have := Nat.two_pow_pos n
  omega

/-! ### `Writer.put`: everything it can do -/

theorem Writer.put_width {w : Writer} {wcap n v : Nat} (h : 32 < n) : w.put wcap n v = .raise .width := by
  simp [Writer.put, h]

theorem Writer.put_value {w : Writer} {wcap n v : Nat} (hn : n ≤ 32) (h : 2 ^ n ≤ v) :
    w.put wcap n v = .raise .value := by
  simp [Writer.put, Nat.not_lt.mpr hn, (shiftRight_ne_zero_iff v n).mpr h]

/-- A write that produces no byte (40_writer.md R62, first branch). -/
theorem Writer.put_short {w : Writer} {wcap n v : Nat} (hn : n ≤ 32) (hv : v < 2 ^ n) (ht : n + w.nheld.toNat < 8) :
    w.put wcap n v = .done { w with
      held := w.held ||| nextHeldByte v (n + w.nheld.toNat)
      nheld := BitVec.ofNat 3 (n + w.nheld.toNat) } := by
  have hv' : ¬ v >>> n ≠ 0 := by rw [shiftRight_ne_zero_iff]; omega
  simp only [Writer.put, totalBits, nextHeldCount, Nat.mod_eq_of_lt ht]
  rw [if_neg (by omega), if_neg hv', if_pos ht]

theorem Writer.put_overflow {w : Writer} {wcap n v : Nat} (hn : n ≤ 32) (hv : v < 2 ^ n) (ht : 8 ≤ n + w.nheld.toNat)
    (hc : wcap < w.len + (n + w.nheld.toNat) / 8) : w.put wcap n v = .raise .overflow := by
  have hv' : ¬ v >>> n ≠ 0 := by rw [shiftRight_ne_zero_iff]; omega
  simp only [Writer.put, totalBits, wholeBytes, Nat.shiftRight_eq_div_pow] at hv' ⊢
  rw [if_neg (by omega), if_neg hv', if_neg (by omega), if_pos (by simpa using hc)]

/-- A write that produces whole bytes (40_writer.md R62, second branch). -/
theorem Writer.put_bytes {w : Writer} {wcap n v : Nat} (hn : n ≤ 32) (hv : v < 2 ^ n) (ht : 8 ≤ n + w.nheld.toNat)
    (hc : w.len + (n + w.nheld.toNat) / 8 ≤ wcap) :
    w.put wcap n v = .done {
      buf := w.buf ++ bytesOfWord ((n + w.nheld.toNat) / 8)
        (justifiedWord w.held.toNat ((n + w.nheld.toNat) / 8) v ((n + w.nheld.toNat) % 8))
      held := nextHeldByte v ((n + w.nheld.toNat) % 8)
      nheld := BitVec.ofNat 3 ((n + w.nheld.toNat) % 8) } := by
  have hv' : ¬ v >>> n ≠ 0 := by rw [shiftRight_ne_zero_iff]; omega
  have hk : (n + w.nheld.toNat) >>> 3 = (n + w.nheld.toNat) / 8 := by rw [Nat.shiftRight_eq_div_pow]
  simp only [Writer.put, totalBits, nextHeldCount, wholeBytes, hk]
  rw [if_neg (by omega), if_neg hv', if_neg (by omega), if_neg (by omega)]

/-- When a write completes: its width and value are legal, and one of the two branches ran. -/
theorem Writer.put_done {w w' : Writer} {wcap n v : Nat} (h : w.put wcap n v = .done w') :
    n ≤ 32 ∧ v < 2 ^ n ∧
    ((n + w.nheld.toNat < 8 ∧ w' = { w with
        held := w.held ||| nextHeldByte v (n + w.nheld.toNat)
        nheld := BitVec.ofNat 3 (n + w.nheld.toNat) }) ∨
      (8 ≤ n + w.nheld.toNat ∧ w.len + (n + w.nheld.toNat) / 8 ≤ wcap ∧ w' = {
        buf := w.buf ++ bytesOfWord ((n + w.nheld.toNat) / 8)
          (justifiedWord w.held.toNat ((n + w.nheld.toNat) / 8) v ((n + w.nheld.toNat) % 8))
        held := nextHeldByte v ((n + w.nheld.toNat) % 8)
        nheld := BitVec.ofNat 3 ((n + w.nheld.toNat) % 8) })) := by
  rcases Nat.lt_or_ge 32 n with hn | hn
  · rw [Writer.put_width hn] at h; cases h
  rcases Nat.lt_or_ge v (2 ^ n) with hv | hv
  · refine ⟨hn, hv, ?_⟩
    rcases Nat.lt_or_ge (n + w.nheld.toNat) 8 with ht | ht
    · rw [Writer.put_short hn hv ht] at h
      cases h
      exact .inl ⟨ht, rfl⟩
    · rcases Nat.lt_or_ge wcap (w.len + (n + w.nheld.toNat) / 8) with hc | hc
      · rw [Writer.put_overflow hn hv ht hc] at h; cases h
      · rw [Writer.put_bytes hn hv ht hc] at h
        cases h
        exact .inr ⟨ht, hc, rfl⟩
  · rw [Writer.put_value hn hv] at h; cases h

/-- The four things `WRITE` can do, in the order of its checks (40_writer.md R62). -/
theorem Writer.put_cases (w : Writer) (wcap n v : Nat) :
    (32 < n ∧ w.put wcap n v = .raise .width) ∨
    (n ≤ 32 ∧ 2 ^ n ≤ v ∧ w.put wcap n v = .raise .value) ∨
    (n ≤ 32 ∧ v < 2 ^ n ∧ 8 ≤ n + w.nheld.toNat ∧ wcap < w.len + (n + w.nheld.toNat) / 8 ∧
      w.put wcap n v = .raise .overflow) ∨
    (n ≤ 32 ∧ v < 2 ^ n ∧ (8 ≤ n + w.nheld.toNat → w.len + (n + w.nheld.toNat) / 8 ≤ wcap) ∧
      ∃ w', w.put wcap n v = .done w') := by
  by_cases h1 : 32 < n
  · exact .inl ⟨h1, Writer.put_width h1⟩
  by_cases h2 : 2 ^ n ≤ v
  · exact .inr (.inl ⟨by omega, h2, Writer.put_value (by omega) h2⟩)
  by_cases h3 : n + w.nheld.toNat < 8
  · exact .inr (.inr (.inr ⟨by omega, by omega, by omega, _, Writer.put_short (by omega) (by omega) h3⟩))
  by_cases h4 : wcap < w.len + (n + w.nheld.toNat) / 8
  · exact .inr (.inr (.inl ⟨by omega, by omega, by omega, h4,
      Writer.put_overflow (by omega) (by omega) (by omega) h4⟩))
  · exact .inr (.inr (.inr ⟨by omega, by omega, by omega, _,
      Writer.put_bytes (by omega) (by omega) (by omega) (by omega)⟩))

/-- A write never leaves the model. -/
theorem Writer.put_ne_stop (w : Writer) (wcap n v : Nat) (f : Fault) : w.put wcap n v ≠ .stop f := by
  unfold Writer.put
  simp only
  split
  · simp
  split
  · simp
  split
  · simp
  split <;> simp

/-- The counts after a write: `len` and `nheld` (49_laws.md R97). -/
theorem Writer.put_counts {w w' : Writer} {wcap n v : Nat} (h : w.put wcap n v = .done w') :
    w'.len = w.len + (n + w.nheld.toNat) / 8 ∧ w'.nheld.toNat = (n + w.nheld.toNat) % 8 := by
  obtain ⟨_, _, ⟨ht, rfl⟩ | ⟨_, _, rfl⟩⟩ := Writer.put_done h
  · refine ⟨?_, ?_⟩
    · simp only [Writer.len]; omega
    · show (BitVec.ofNat 3 _).toNat = _
      rw [BitVec.toNat_ofNat]
  · refine ⟨by simp [Writer.len], ?_⟩
    show (BitVec.ofNat 3 _).toNat = _
    rw [BitVec.toNat_ofNat]
    omega

/-- The held byte after a write that produces no byte: the new bits stand just below the old ones. -/
theorem put_short_held {w : Writer} {n v : Nat} (hi : w.held &&& ((0xFF#8) >>> w.nheld.toNat) = 0#8)
    (hv : v < 2 ^ n) (ht : n + w.nheld.toNat < 8) :
    (w.held ||| nextHeldByte v (n + w.nheld.toNat)).toNat =
      w.held.toNat + 2 ^ (8 - (n + w.nheld.toNat)) * v := by
  obtain ⟨q, _, hq⟩ := held_eq_mul hi
  have hb : (nextHeldByte v (n + w.nheld.toNat)).toNat = 2 ^ (8 - (n + w.nheld.toNat)) * v := by
    rcases Nat.eq_zero_or_pos (n + w.nheld.toNat) with h0 | h0
    · have : v = 0 := by have hn : n = 0 := by omega
                         subst hn; simpa using hv
      subst this
      rw [h0]; rfl
    · rw [nextHeldByte_toNat_of_pos h0 (by omega), Nat.mod_eq_of_lt]
      exact Nat.lt_of_lt_of_le hv (Nat.pow_le_pow_right (by omega) (by omega))
  have hlt : 2 ^ (8 - (n + w.nheld.toNat)) * v < 2 ^ (8 - w.nheld.toNat) := by
    calc 2 ^ (8 - (n + w.nheld.toNat)) * v < 2 ^ (8 - (n + w.nheld.toNat)) * 2 ^ n :=
          Nat.mul_lt_mul_of_pos_left hv (Nat.two_pow_pos _)
      _ = 2 ^ (8 - w.nheld.toNat) := by rw [← Nat.pow_add]; congr 1; omega
  rw [BitVec.toNat_or, hb, hq, ← Nat.two_pow_add_eq_or_of_lt hlt]

/-- The justified word, as arithmetic: the held bits above the bits of the value that leave (40_writer.md R61). -/
theorem justifiedWord_eq {held h n v : Nat} (q : Nat) (hq : held = 2 ^ (8 - h) * q) (h8 : h < 8)
    (hv : v < 2 ^ n) (ht : 8 ≤ n + h) :
    justifiedWord held ((n + h) / 8) v ((n + h) % 8) =
      2 ^ (8 * ((n + h) / 8) - h) * q + v / 2 ^ ((n + h) % 8) := by
  have hk : 8 * ((n + h) / 8) + (n + h) % 8 = n + h := Nat.div_add_mod _ 8
  have e1 : held <<< (8 * ((n + h) / 8) - 8) = 2 ^ (8 * ((n + h) / 8) - h) * q := by
    rw [Nat.shiftLeft_eq, hq, Nat.mul_right_comm, ← Nat.pow_add]
    congr 2
    omega
  have e2 : v / 2 ^ ((n + h) % 8) < 2 ^ (8 * ((n + h) / 8) - h) := by
    rw [Nat.div_lt_iff_lt_mul (Nat.two_pow_pos _), ← Nat.pow_add]
    exact Nat.lt_of_lt_of_le hv (Nat.pow_le_pow_right (by omega) (by omega))
  rw [justifiedWord, e1, Nat.shiftRight_eq_div_pow, ← Nat.two_pow_add_eq_or_of_lt e2]

/-- The valid held bits, as a bit string. -/
theorem be_held {held h q : Nat} (hq : held = 2 ^ (8 - h) * q) (h8 : h ≤ 8) : (be 8 held).take h = be h q := by
  rw [be_take h8, hq, Nat.shiftRight_eq_div_pow, Nat.mul_div_cancel_left _ (Nat.two_pow_pos _)]

/-- A write that completes appends the field to the logical bit string (49_laws.md R97). -/
theorem Writer.put_wbits {w w' : Writer} {wcap n v : Nat} (hi : w.held &&& ((0xFF#8) >>> w.nheld.toNat) = 0#8)
    (h : w.put wcap n v = .done w') : w'.wbits = w.wbits ++ be n v := by
  have h8 : w.nheld.toNat < 8 := w.nheld.isLt
  obtain ⟨q, hql, hq⟩ := held_eq_mul hi
  obtain ⟨_, hv, ⟨ht, rfl⟩ | ⟨ht, _, rfl⟩⟩ := Writer.put_done h
  · simp only [Writer.wbits, put_short_held hi hv ht, List.append_assoc]
    congr 1
    have hn : (BitVec.ofNat 3 (n + w.nheld.toNat)).toNat = w.nheld.toNat + n := by
      rw [BitVec.toNat_ofNat, Nat.mod_eq_of_lt (by simpa using ht), Nat.add_comm]
    rw [hn, be_held hq (by omega)]
    have e : w.held.toNat + 2 ^ (8 - (n + w.nheld.toNat)) * v =
        2 ^ (8 - (w.nheld.toNat + n)) * (2 ^ n * q + v) := by
      rw [hq, Nat.mul_add, ← Nat.mul_assoc, ← Nat.pow_add, Nat.add_comm n]
      congr 3
      omega
    rw [be_held e (by omega), be_add]
    congr 1
    · rw [Nat.shiftRight_eq_div_pow, Nat.mul_add_div (Nat.two_pow_pos _), Nat.div_eq_of_lt hv, Nat.add_zero]
    · rw [← be_mod, Nat.mul_add_mod, be_mod]
  · have hk : 8 * ((n + w.nheld.toNat) / 8) + (n + w.nheld.toNat) % 8 = n + w.nheld.toNat := Nat.div_add_mod _ 8
    have hnh : (n + w.nheld.toNat) % 8 < 8 := Nat.mod_lt _ (by omega)
    simp only [Writer.wbits, bitsOf_append, bitsOf_bytesOfWord, List.append_assoc]
    congr 1
    have hn : (BitVec.ofNat 3 ((n + w.nheld.toNat) % 8)).toNat = (n + w.nheld.toNat) % 8 := by
      rw [BitVec.toNat_ofNat]; omega
    rw [hn, be_nextHeldByte hnh, be_held hq (by omega), justifiedWord_eq q hq h8 hv ht]
    have hsplit : 8 * ((n + w.nheld.toNat) / 8) =
        w.nheld.toNat + (8 * ((n + w.nheld.toNat) / 8) - w.nheld.toNat) := by omega
    have hlow : v / 2 ^ ((n + w.nheld.toNat) % 8) < 2 ^ (8 * ((n + w.nheld.toNat) / 8) - w.nheld.toNat) := by
      rw [Nat.div_lt_iff_lt_mul (Nat.two_pow_pos _), ← Nat.pow_add]
      exact Nat.lt_of_lt_of_le hv (Nat.pow_le_pow_right (by omega) (by omega))
    rw [show be (8 * ((n + w.nheld.toNat) / 8)) _ = be (w.nheld.toNat +
      (8 * ((n + w.nheld.toNat) / 8) - w.nheld.toNat)) _ from by rw [← hsplit], be_add, List.append_assoc]
    congr 1
    · rw [Nat.shiftRight_eq_div_pow, Nat.mul_add_div (Nat.two_pow_pos _), Nat.div_eq_of_lt hlow, Nat.add_zero]
    · rw [← be_mod, Nat.mul_add_mod, be_mod, ← Nat.shiftRight_eq_div_pow, ← be_add]
      congr 1
      omega

/-- A write that completes keeps the writer invariant (49_laws.md R95). -/
theorem Writer.put_inv {w w' : Writer} {wcap n v : Nat} (hi : w.Inv wcap) (h : w.put wcap n v = .done w') :
    w'.Inv wcap := by
  have h8 : w.nheld.toNat < 8 := w.nheld.isLt
  obtain ⟨q, hql, hq⟩ := held_eq_mul hi.1
  obtain ⟨_, hv, ⟨ht, rfl⟩ | ⟨ht, hc, rfl⟩⟩ := Writer.put_done h
  · refine ⟨?_, hi.2⟩
    rw [held_inv_iff, put_short_held hi.1 hv ht]
    have hn : (BitVec.ofNat 3 (n + w.nheld.toNat)).toNat = n + w.nheld.toNat := by
      rw [BitVec.toNat_ofNat, Nat.mod_eq_of_lt (by simpa using ht)]
    have e : w.held.toNat = 2 ^ (8 - (n + w.nheld.toNat)) * (2 ^ n * q) := by
      rw [hq, ← Nat.mul_assoc, ← Nat.pow_add]
      congr 2
      omega
    rw [hn, e, ← Nat.mul_add, Nat.mul_mod_right]
  · refine ⟨?_, ?_⟩
    · have hnh : (n + w.nheld.toNat) % 8 < 8 := Nat.mod_lt _ (by omega)
      have hn : (BitVec.ofNat 3 ((n + w.nheld.toNat) % 8)).toNat = (n + w.nheld.toNat) % 8 := by
        rw [BitVec.toNat_ofNat]; omega
      rw [held_inv_iff, hn]
      rcases Nat.eq_zero_or_pos ((n + w.nheld.toNat) % 8) with h0 | h0
      · rw [h0]; rfl
      · rw [nextHeldByte_toNat_of_pos h0 (by omega), Nat.mul_mod_right]
    · simp only [List.length_append, bytesOfWord_length]
      exact hc

/-! ### The align commands -/

theorem Writer.aligned_iff (w : Writer) : w.aligned = true ↔ w.nheld = 0#3 := by simp [Writer.aligned]

/-- The three things `WALIGN0` can do (40_writer.md R64). -/
theorem Writer.alignZero_cases (w : Writer) (wcap : Nat) :
    (w.nheld = 0#3 ∧ w.alignZero wcap = .done w) ∨
    (w.nheld ≠ 0#3 ∧ wcap < w.len + 1 ∧ w.alignZero wcap = .raise .overflow) ∨
    (w.nheld ≠ 0#3 ∧ w.len + 1 ≤ wcap ∧
      w.alignZero wcap = .done { buf := w.buf ++ [w.held], held := 0#8, nheld := 0#3 }) := by
  unfold Writer.alignZero
  by_cases h : w.nheld = 0#3
  · simp [Writer.aligned, h]
  · by_cases hc : wcap < w.len + 1
    · simp [Writer.aligned, h, hc]
    · simp [Writer.aligned, h, hc]
      omega

/-- The pad count: 0 for an aligned writer, else the distance to the next byte boundary (40_writer.md R65). -/
theorem Writer.padBits_eq (w : Writer) :
    (w.nheld = 0#3 ∧ w.padBits = 0) ∨ (w.nheld ≠ 0#3 ∧ w.padBits = 8 - w.nheld.toNat ∧ 1 ≤ w.nheld.toNat) := by
  have h8 : w.nheld.toNat < 8 := w.nheld.isLt
  by_cases h : w.nheld = 0#3
  · exact .inl ⟨h, by simp [Writer.padBits, h]⟩
  · have h0 : w.nheld.toNat ≠ 0 := fun h0 => h (BitVec.eq_of_toNat_eq h0)
    exact .inr ⟨h, by simp only [Writer.padBits]; omega, by omega⟩

/-- The write of pad bits `v` up to the next byte boundary: what both align commands come to (40_writer.md R64, R65). -/
theorem Writer.put_pad (w : Writer) (wcap v : Nat) (hv : v < 2 ^ w.padBits) :
    (w.nheld = 0#3 ∧ w.put wcap w.padBits v = .done w) ∨
    (w.nheld ≠ 0#3 ∧ wcap < w.len + 1 ∧ w.put wcap w.padBits v = .raise .overflow) ∨
    (w.nheld ≠ 0#3 ∧ w.len + 1 ≤ wcap ∧ w.put wcap w.padBits v =
      .done { buf := w.buf ++ [w.held ||| BitVec.ofNat 8 v], held := 0#8, nheld := 0#3 }) := by
  have h8 : w.nheld.toNat < 8 := w.nheld.isLt
  rcases w.padBits_eq with ⟨h, hp⟩ | ⟨h, hp, h1⟩
  · refine .inl ⟨h, ?_⟩
    rw [hp] at hv ⊢
    have hv0 : v = 0 := by simpa using hv
    subst hv0
    rw [Writer.put_short (by omega) (by simp) (by omega)]
    obtain ⟨buf, held, nheld⟩ := w
    simp only at h ⊢
    subst h
    simp
  · have ht : w.padBits + w.nheld.toNat = 8 := by omega
    by_cases hc : wcap < w.len + 1
    · exact .inr (.inl ⟨h, hc, Writer.put_overflow (by omega) hv (by omega) (by rw [ht]; exact hc)⟩)
    · refine .inr (.inr ⟨h, by omega, ?_⟩)
      rw [Writer.put_bytes (by omega) hv (by omega) (by rw [ht]; show _ + 1 ≤ _; omega), ht]
      simp only [Result.done.injEq, Writer.mk.injEq, List.append_cancel_left_eq]
      refine ⟨?_, rfl, trivial⟩
      simp only [bytesOfWord, justifiedWord, List.range_succ, List.range_zero, List.nil_append, List.map_cons,
        List.map_nil, List.cons.injEq, and_true]
      apply BitVec.eq_of_toNat_eq
      simp

theorem mask_lt (k : Nat) : mask k < 2 ^ k := by
  have := Nat.two_pow_pos k
  simp only [mask]
  omega

/-- The three things `WALIGN1` can do (40_writer.md R65). -/
theorem Writer.alignOne_cases (w : Writer) (wcap : Nat) :
    (w.nheld = 0#3 ∧ w.alignOne wcap = .done w) ∨
    (w.nheld ≠ 0#3 ∧ wcap < w.len + 1 ∧ w.alignOne wcap = .raise .overflow) ∨
    (w.nheld ≠ 0#3 ∧ w.len + 1 ≤ wcap ∧ w.alignOne wcap =
      .done { buf := w.buf ++ [w.held ||| BitVec.ofNat 8 (mask w.padBits)], held := 0#8, nheld := 0#3 }) :=
  w.put_pad wcap _ (mask_lt _)

/-- `WALIGN0` is the write of the pad count of zero bits (40_writer.md R64). -/
theorem Writer.alignZero_eq_put (w : Writer) (wcap : Nat) : w.alignZero wcap = w.put wcap w.padBits 0 := by
  rcases w.alignZero_cases wcap with ⟨h, ha⟩ | ⟨h, hc, ha⟩ | ⟨h, hc, ha⟩ <;>
    rcases w.put_pad wcap 0 (Nat.two_pow_pos _) with ⟨h', hp⟩ | ⟨h', hc', hp⟩ | ⟨h', hc', hp⟩ <;>
    first
    | (exfalso; first | exact h' h | exact h h' | omega)
    | (rw [ha, hp]; try simp)

end Sys2Proof.Machine
end

