-- ==== Sys2Proof/Tests/Slice0.lean ====
section
/-! SUPPORT. The model's own tests. Expected values come from the spec: the vectors V1, V2, T1 to T21 of
95_test_vectors.md, or the fields of 30_encoding.md R46 written out by hand. The last section meets the hypotheses of every
statement at concrete states. -/

namespace Sys2Proof.Tests

open Sys2Proof Sys2Proof.Machine

/-! ### Helpers -/

/-- The next state of an outcome. -/
def nextOf (o : Host.Outcome State Fault Refusal) : Option State :=
  match o with
  | .next s => some s
  | .fault _ => none
  | .refused _ => none

/-- The last response of an outcome, as `(st = FAULT, data)`. -/
def answerOf (o : Host.Outcome State Fault Refusal) : Option (Bool × Nat) :=
  (nextOf o).bind fun s => s.trace.getLast?.map fun r => (r.st == .fault, r.data.toNat)

/-- The writer contexts after an outcome. -/
def writersOf (o : Host.Outcome State Fault Refusal) : Option (List Writer) := (nextOf o).map State.writers

/-- The reader contexts after an outcome. -/
def readersOf (o : Host.Outcome State Fault Refusal) : Option (List Reader) := (nextOf o).map State.readers

/-- A running engine with two given writers and capacity `cap`. -/
def withWriters (a b : Writer) (cap : Nat) : State := { State.reset with writers := [a, b], wcap := cap }

/-- `XMEM[0x2000..0x2008] = DE AD BE EF 12 34 56 78 9A` (95_test_vectors.md T12). -/
def xmemT12 : Memory :=
  [(0x2000, 0xDE#8), (0x2001, 0xAD#8), (0x2002, 0xBE#8), (0x2003, 0xEF#8), (0x2004, 0x12#8), (0x2005, 0x34#8),
   (0x2006, 0x56#8), (0x2007, 0x78#8), (0x2008, 0x9A#8)]

/-- A running engine with one given reader over `xmemT12`. -/
def withReader (r : Reader) : State := { State.reset with readers := [r], xmem := xmemT12 }

/-- An engine halted with cause 11 (95_test_vectors.md T21). -/
def halted11 : State := { State.reset with fault := { valid := true, cause := 11#8 } }

/-- A reader of `xmemT12` bound at 0x2000. -/
def readerAt (blen cursor : Nat) (held : BitVec 8) (nheld : BitVec 3) : Reader :=
  { base := 0x2000#32, blen := BitVec.ofNat 32 blen, cursor := BitVec.ofNat 32 cursor, held := held, nheld := nheld }

/-! ### Well-formedness: each check refuses an ill-formed term, and the largest legal one passes -/

theorem test_wf_write_u : (Instr.write 256 0 0#32).wellFormed = false := by decide
theorem test_wf_write_n : (Instr.write 0 256 0#32).wellFormed = false := by decide
theorem test_wf_walign0 : (Instr.walign0 256).wellFormed = false := by decide
theorem test_wf_walign1 : (Instr.walign1 256).wellFormed = false := by decide
theorem test_wf_wlen : (Instr.wlen 256).wellFormed = false := by decide
theorem test_wf_wbyte : (Instr.wbyte 256 0#32).wellFormed = false := by decide
theorem test_wf_wclear : (Instr.wclear 256).wellFormed = false := by decide
theorem test_wf_winsert_u : (Instr.winsert 256 0 0#32).wellFormed = false := by decide
theorem test_wf_winsert_src : (Instr.winsert 0 256 0#32).wellFormed = false := by decide
theorem test_wf_rbind : (Instr.rbind 256 0#32 0#32).wellFormed = false := by decide
theorem test_wf_read_u : (Instr.read 256 0).wellFormed = false := by decide
theorem test_wf_read_n : (Instr.read 0 256).wellFormed = false := by decide
theorem test_wf_pread_u : (Instr.pread 256 0).wellFormed = false := by decide
theorem test_wf_pread_n : (Instr.pread 0 256).wellFormed = false := by decide
theorem test_wf_largest :
    (Instr.write 255 255 0xFFFFFFFF#32).wellFormed = true ∧ (Instr.winsert 255 255 0#32).wellFormed = true ∧
    (Instr.pread 255 255).wellFormed = true := by decide

/-! ### Decoding: every constructor's word written out bit by bit from 30_encoding.md R46 and R49

Each word is `op ++ u ++ n ++ s ++ a ++ b`, 8 + 8 + 8 + 8 + 32 + 32 bits, most significant first. -/

theorem test_decode_write :
    decode (0b00000001#8 ++ 0b10000001#8 ++ 0b00100000#8 ++ 0b00000000#8 ++ 0x80000001#32 ++ 0#32) =
      some (.write 129 32 0x80000001#32) := by decide
theorem test_decode_walign0 :
    decode (0b00000010#8 ++ 0b00000101#8 ++ 0#8 ++ 0#8 ++ 0#32 ++ 0#32) = some (.walign0 5) := by decide
theorem test_decode_walign1 :
    decode (0b00000011#8 ++ 0b11111111#8 ++ 0#8 ++ 0#8 ++ 0#32 ++ 0#32) = some (.walign1 255) := by decide
theorem test_decode_wlen :
    decode (0b00000100#8 ++ 0b00000001#8 ++ 0#8 ++ 0#8 ++ 0#32 ++ 0#32) = some (.wlen 1) := by decide
theorem test_decode_wbyte :
    decode (0b00000101#8 ++ 0b00000010#8 ++ 0#8 ++ 0#8 ++ 0x00000100#32 ++ 0#32) =
      some (.wbyte 2 256#32) := by decide
theorem test_decode_wclear :
    decode (0b00000110#8 ++ 0b00000011#8 ++ 0#8 ++ 0#8 ++ 0#32 ++ 0#32) = some (.wclear 3) := by decide
theorem test_decode_winsert :
    decode (0b00000111#8 ++ 0b00000001#8 ++ 0#8 ++ 0b00000100#8 ++ 0x00000009#32 ++ 0#32) =
      some (.winsert 1 4 9#32) := by decide
theorem test_decode_rbind :
    decode (0b00010000#8 ++ 0b00000000#8 ++ 0#8 ++ 0#8 ++ 0x00001000#32 ++ 0x00000002#32) =
      some (.rbind 0 0x1000#32 2#32) := by decide
theorem test_decode_read :
    decode (0b00010001#8 ++ 0b00000001#8 ++ 0b00001000#8 ++ 0#8 ++ 0#32 ++ 0#32) = some (.read 1 8) := by decide
theorem test_decode_pread :
    decode (0b00010010#8 ++ 0b00000001#8 ++ 0b00100001#8 ++ 0#8 ++ 0#32 ++ 0#32) = some (.pread 1 33) := by decide

/-- The illegal words of 95_test_vectors.md T19. -/
theorem test_decode_illegal :
    [0x000000000000000000000000#96, 0x080000000000000000000000#96, 0x0F0003000000000500000000#96,
     0x130000000000000000000000#96, 0xFFFFFFFFFFFFFFFFFFFFFFFF#96, 0x010003010000000500000000#96,
     0x010003000000000500000001#96, 0x020001000000000000000000#96, 0x030000000000000100000000#96,
     0x040000000000000080000000#96, 0x050000000000000000000001#96, 0x050008000000000000000000#96,
     0x060100010000000000000000#96, 0x070001010000000000000000#96, 0x070000010000000000000001#96,
     0x100001000000000000000000#96, 0x100000010000000000000000#96, 0x110008000000000100000000#96,
     0x120008000000000000000001#96, 0x01052101FFFFFFFF00000000#96].map decode = List.replicate 20 none := by decide

/-- The encoder writes the words of 95_test_vectors.md. -/
theorem test_encode :
    encode (.write 0 3 5#32) = 0x010003000000000500000000#96 ∧
    encode (.winsert 0 1 7#32) = 0x070000010000000700000000#96 ∧
    encode (.rbind 0 0x1000#32 2#32) = 0x100000000000100000000002#96 ∧
    encode (.pread 0 33) = 0x120021000000000000000000#96 := by decide

/-- No word matches two rows of the opcode map (30_encoding.md R49): the opcodes differ under both masks. -/
theorem test_opcode_rows_disjoint :
    opcodeRows.Pairwise (fun r r' => r.pattern &&& r.mask &&& r'.mask ≠ r'.pattern &&& r.mask &&& r'.mask) := by
  decide

/-- The word the host places is decoded and run by the next step, from reset. -/
theorem test_fetch_word :
    decodeTableWord 96 0x01000800000000CA00000000 = some (.write 0 8 0xCA#32) ∧
    answerOf (step (State.reset.withFetchWord 96 0x01000800000000CA00000000)) = some (false, 0) := by decide

/-! ### WRITE (T2 rows 3 and 4) -/

theorem test_write_seven_held_bits_and_32_more :
    writersOf (exec (.write 0 32 0x12345678#32)
      (withWriters { buf := [0xEF#8], held := 0xFE#8, nheld := 7#3 } Writer.empty 8)) =
    some [{ buf := [0xEF#8, 0xFE#8, 0x24#8, 0x68#8, 0xAC#8], held := 0xF0#8, nheld := 7#3 }, Writer.empty] := by
  decide

theorem test_write_order_of_checks :
    answerOf (exec (.write 0 255 0xFFFFFFFF#32) State.reset) = some (true, 3) ∧
    answerOf (exec (.write 0 31 0x80000000#32) State.reset) = some (true, 4) ∧
    answerOf (exec (.write 0 16 0x2233#32)
      (withWriters { buf := [0x11#8], held := 0#8, nheld := 0#3 } Writer.empty 2)) = some (true, 5) ∧
    answerOf (exec (.write 2 33 0#32) State.reset) = some (true, 2) := by
  decide

/-! ### WALIGN0, WALIGN1 (T6, T7) -/

theorem test_walign0_appends_held :
    writersOf (exec (.walign0 0) (withWriters { buf := [], held := 0xC0#8, nheld := 2#3 } Writer.empty 1)) =
    some [{ buf := [0xC0#8], held := 0#8, nheld := 0#3 }, Writer.empty] := by decide

theorem test_walign0_full_buffer :
    answerOf (exec (.walign0 0) (withWriters { buf := [1#8, 2#8], held := 0xA0#8, nheld := 3#3 } Writer.empty 2)) =
      some (true, 5) ∧
    answerOf (exec (.walign0 0) (withWriters { buf := [1#8, 2#8], held := 0#8, nheld := 0#3 } Writer.empty 2)) =
      some (false, 0) := by decide

theorem test_walign1_fills_with_ones :
    writersOf (exec (.walign1 0) (withWriters { buf := [], held := 0xB0#8, nheld := 5#3 } Writer.empty 9)) =
    some [{ buf := [0xB7#8], held := 0#8, nheld := 0#3 }, Writer.empty] := by decide

theorem test_walign1_seven_ones_after_one_bit :
    writersOf (exec (.walign1 0) (withWriters { buf := [], held := 0x80#8, nheld := 1#3 } Writer.empty 9)) =
    some [{ buf := [0xFF#8], held := 0#8, nheld := 0#3 }, Writer.empty] := by decide

/-! ### WLEN, WBYTE, WCLEAR (T8) -/

theorem test_wlen_does_not_count_held_bits :
    answerOf (exec (.wlen 0) (withWriters { buf := [0xAB#8], held := 0xC0#8, nheld := 4#3 } Writer.empty 9)) =
      some (false, 1) := by decide

theorem test_wbyte_last_and_past_the_end :
    answerOf (exec (.wbyte 0 1#32) (withWriters { buf := [0xB9#8, 0x40#8], held := 0#8, nheld := 0#3 } Writer.empty 9)) =
      some (false, 0x40) ∧
    answerOf (exec (.wbyte 0 2#32) (withWriters { buf := [0xB9#8, 0x40#8], held := 0#8, nheld := 0#3 } Writer.empty 9)) =
      some (true, 6) := by decide

theorem test_wclear_discards_held_bits :
    writersOf (exec (.wclear 0) (withWriters { buf := [0xAB#8], held := 0xC0#8, nheld := 4#3 } Writer.empty 9)) =
      some [Writer.empty, Writer.empty] := by decide

/-! ### WINSERT (T9, T10, T11) -/

theorem test_winsert_middle_keeps_held :
    writersOf (exec (.winsert 0 1 1#32)
      (withWriters { buf := [0x11#8, 0x22#8, 0x33#8], held := 0xA0#8, nheld := 3#3 }
        { buf := [0xAA#8, 0xBB#8], held := 0#8, nheld := 0#3 } 5)) =
    some [{ buf := [0x11#8, 0xAA#8, 0xBB#8, 0x22#8, 0x33#8], held := 0xA0#8, nheld := 3#3 },
      { buf := [0xAA#8, 0xBB#8], held := 0#8, nheld := 0#3 }] := by decide

theorem test_winsert_order_of_checks :
    answerOf (exec (.winsert 0 0 9#32)
      (withWriters { buf := [], held := 0xA0#8, nheld := 3#3 } Writer.empty 4)) = some (true, 7) ∧
    answerOf (exec (.winsert 0 1 9#32)
      (withWriters Writer.empty { buf := [], held := 0xA0#8, nheld := 3#3 } 4)) = some (true, 8) ∧
    answerOf (exec (.winsert 0 1 4#32)
      (withWriters { buf := [1#8, 2#8, 3#8], held := 0#8, nheld := 0#3 }
        { buf := [4#8, 5#8], held := 0#8, nheld := 0#3 } 4)) = some (true, 9) ∧
    answerOf (exec (.winsert 0 1 1#32)
      (withWriters { buf := [1#8, 2#8, 3#8], held := 0#8, nheld := 0#3 }
        { buf := [4#8, 5#8], held := 0#8, nheld := 0#3 } 4)) = some (true, 5) ∧
    answerOf (exec (.winsert 2 2 0#32) State.reset) = some (true, 2) := by decide

/-! ### RBIND, READ (T12, T13, T15) -/

theorem test_rbind_top_of_xmem :
    readersOf (exec (.rbind 0 0xFFFFFFFF#32 1#32) (withReader (readerAt 2 1 0xDE#8 3#3))) =
      some [{ base := 0xFFFFFFFF#32, blen := 1#32, cursor := 0#32, held := 0#8, nheld := 0#3 }] ∧
    answerOf (exec (.rbind 0 2#32 0xFFFFFFFF#32) State.reset) = some (true, 10) := by decide

theorem test_read_seven_held_bits_and_25_more :
    answerOf (exec (.read 0 32) (withReader (readerAt 9 5 0x12#8 7#3))) = some (false, 0x2468ACF1) ∧
    readersOf (exec (.read 0 32) (withReader (readerAt 9 5 0x12#8 7#3))) = some [readerAt 9 9 0x9A#8 7#3] := by decide

theorem test_read_from_held_and_overrun :
    answerOf (exec (.read 0 3) (withReader (readerAt 9 9 0x9A#8 7#3))) = some (false, 1) ∧
    readersOf (exec (.read 0 3) (withReader (readerAt 9 9 0x9A#8 7#3))) = some [readerAt 9 9 0x9A#8 4#3] ∧
    answerOf (exec (.read 0 12) (withReader (readerAt 2 1 0xDE#8 3#3))) = some (true, 11) ∧
    readersOf (exec (.read 0 12) (withReader (readerAt 2 1 0xDE#8 3#3))) = some [readerAt 2 1 0xDE#8 3#3] := by decide

/-! ### PREAD (T17, T18) -/

theorem test_pread_zero_fill :
    answerOf (exec (.pread 0 32) (withReader (readerAt 2 2 0xAD#8 4#3))) = some (false, 0xD0000000) ∧
    readersOf (exec (.pread 0 32) (withReader (readerAt 2 2 0xAD#8 4#3))) = some [readerAt 2 2 0xAD#8 4#3] ∧
    answerOf (exec (.pread 0 32) (withReader (readerAt 2 2 0xAD#8 0#3))) = some (false, 0) ∧
    answerOf (exec (.pread 0 33) (withReader (readerAt 2 2 0xAD#8 0#3))) = some (true, 3) := by decide

theorem test_pread_across_bytes :
    answerOf (exec (.pread 0 21) (withReader (readerAt 3 1 0xDE#8 5#3))) = some (false, 0x1EADBE) ∧
    answerOf (exec (.pread 0 22) (withReader (readerAt 3 1 0xDE#8 5#3))) = some (false, 0x3D5B7C) := by decide

/-! ### The halted state, reset and the host (T16, T21) -/

theorem test_halted_refuses_every_word :
    answerOf (step (halted11.present 0#96)) = some (true, 11) ∧
    answerOf (step (halted11.present (encode (.wlen 0)))) = some (true, 11) ∧
    answerOf (step (halted11.present (encode (.write 0 33 0#32)))) = some (true, 11) := by decide

theorem test_illegal_word_faults :
    answerOf (step (State.reset.present 0x130000000000000000000000#96)) = some (true, 1) := by decide

theorem test_reset_input_clears_fault_and_keeps_xmem :
    (nextOf (step { withReader (readerAt 2 1 0xDE#8 3#3) with
        fault := { valid := true, cause := 11#8 }, host := [.reset] })).map
      (fun s => (s.fault, s.readers, s.xmem)) =
    some (FaultReg.clear, [Reader.unbound], xmemT12) := by decide

theorem test_host_write_is_not_seen_by_held_bits :
    (nextOf (step { withReader (readerAt 2 1 0xDE#8 4#3) with
        host := [.writeXmem 0x2000#32 0#8] })).map
      (fun s => (answerOf (exec (.read 0 4) s), s.xmem.get 0x2000)) = some (some (false, 0xE), 0#8) := by decide

/-! ### Memory: the canonical form -/

theorem test_memory_put_removes_what_reads_the_same :
    Memory.put [(1, 5#8), (3, 7#8)] 3 0#8 = [(1, 5#8)] ∧
    Memory.put [(1, 5#8), (3, 7#8)] 2 9#8 = [(1, 5#8), (2, 9#8), (3, 7#8)] ∧
    Memory.put [(1, 5#8)] 1 6#8 = [(1, 6#8)] ∧ Memory.put [(1, 5#8)] 2 0#8 = [(1, 5#8)] := by decide

theorem test_memory_wf_refuses :
    Memory.wf [(3, 1#8), (1, 1#8)] = false ∧ Memory.wf [(1, 1#8), (1, 1#8)] = false ∧
    Memory.wf [(1, 0#8)] = false ∧ Memory.wf [(2 ^ 32, 1#8)] = false ∧ Memory.wf [(0, 1#8), (2 ^ 32 - 1, 1#8)] = true := by
  decide

/-! ### The hypotheses of the statements are met

One theorem per statement with hypotheses, named after it; where a statement has several clauses, one witness for each,
at the ends of its range. -/

/-- The writer of V1 after `WRITE w0, 3, 0b101`. -/
def w3 : Writer := { buf := [], held := 0xA0#8, nheld := 3#3 }

/-- A writer that holds 7 bits. -/
def w7 : Writer := { buf := [0x11#8], held := 0xFE#8, nheld := 7#3 }

/-- A full, aligned writer for capacity 1. -/
def wFull : Writer := { buf := [0x11#8], held := 0#8, nheld := 0#3 }

/-- The reader of T13 with 3 bits held. -/
def r3 : Reader := readerAt 2 1 0xDE#8 3#3

/-- The reader of T13 at the end of its buffer with 3 bits held. -/
def rEnd : Reader := readerAt 2 2 0xAD#8 3#3

theorem test_meets_DecodeOfEncode :
    (Instr.write 0 0 0#32).WellFormed ∧ (Instr.winsert 255 255 0xFFFFFFFF#32).WellFormed := by decide

theorem test_meets_EncodeOfDecode :
    decode 0x010003000000000500000000#96 = some (.write 0 3 5#32) ∧
    decode (encode (.pread 255 255)) = some (.pread 255 255) := by decide

theorem test_meets_OpcodeMapDecides :
    (∀ r ∈ opcodeRows, r.Matches r.pattern) ∧
    (∀ r ∈ opcodeRows, r.Matches (r.pattern ||| ~~~ r.mask)) ∧
    (∀ r ∈ opcodeRows, (decode r.pattern).map Instr.mnemonic = some r.mnemonic) := by decide

theorem test_meets_IllegalWordsFault :
    (0x130000000000000000000000#96).extractLsb' 88 8 ∉
      [0x01#8, 0x02#8, 0x03#8, 0x04#8, 0x05#8, 0x06#8, 0x07#8, 0x10#8, 0x11#8, 0x12#8] ∧
    State.reset.fault.valid = false ∧ decode 0x0F0000000000000000000000#96 = none := by decide

theorem test_meets_StepRunsTheDecodedCommand :
    (State.reset.present (encode (.wlen 1))).host = [.command (encode (.wlen 1))] ∧
    decode (encode (.wlen 1)) = some (.wlen 1) := by decide

theorem test_meets_HostWriteChangesOneByte :
    ({ withReader r3 with host := [.writeXmem 0xFFFFFFFF#32 0x5A#8] } : State).xmem.wf = true ∧
    ({ withReader r3 with host := [.writeXmem 0x2000#32 0#8, .reset] } : State).host =
      [.writeXmem 0x2000#32 0#8, .reset] ∧
    State.reset.host = [] := by decide

theorem test_meets_ResetInputEffect :
    ({ halted11 with host := [.reset] } : State).host = [.reset] ∧
    (∃ t, (halted11.present 0#96).fault.valid = true ∧ step (halted11.present 0#96) = .next t ∧
      ∀ rest, (halted11.present 0#96).host ≠ .reset :: rest) :=
  ⟨rfl, _, rfl, rfl, by intro rest h; cases h⟩

theorem test_meets_ResetStateValues :
    (State.resetWith ⟨1, 256, 1⟩ []).writers[0]? = some Writer.empty ∧
    (State.resetWith ⟨256, 1, 1⟩ []).readers[0]? = some Reader.unbound := by decide

theorem test_meets_ResetSatisfiesInvariant :
    Params.InRange ⟨1, 1, 1⟩ ∧ Params.InRange ⟨256, 256, 2 ^ 32 - 1⟩ ∧ Memory.wf xmemT12 = true := by decide

theorem test_meets_FaultEntryChangesOnlyFault :
    (∃ t, State.reset.fault.valid = false ∧ exec (.read 0 1) State.reset = .next t ∧ t.fault.valid = true) ∧
    (∃ t, runWord 0#96 State.reset = .next t ∧ t.fault.valid = true) :=
  ⟨⟨_, rfl, rfl, rfl⟩, ⟨_, rfl, rfl⟩⟩

theorem test_meets_HaltedEngineAnswersTheCause :
    halted11.fault.valid = true ∧ halted11.fault.cause = 11#8 := by decide

theorem test_meets_FaultIsKeptUntilReset :
    ∃ t, halted11.fault.valid = true ∧
      HostAction.reset ∉ [HostAction.command 0#96, .writeXmem 0#32 1#8, .command (encode (.wclear 0))] ∧
      play [.command 0#96, .writeXmem 0#32 1#8, .command (encode (.wclear 0))] halted11 = .next t :=
  ⟨_, rfl, by decide, rfl⟩

theorem test_meets_MissingContextFaults :
    State.reset.fault.valid = false ∧ State.reset.writers.length ≤ 2 ∧ State.reset.readers.length ≤ 1 := by decide

theorem test_meets_WidthFault :
    State.reset.fault.valid = false ∧ 1 < State.reset.writers.length ∧ 0 < State.reset.readers.length := by decide

theorem test_meets_ValueFault :
    State.reset.fault.valid = false ∧ 0 < State.reset.writers.length ∧
    nextOf (exec (.write 0 31 0x80000000#32) State.reset) = some (State.reset.takeFault .value) ∧
    nextOf (exec (.write 0 32 0x80000000#32) State.reset) ≠ some (State.reset.takeFault .value) := by decide

theorem test_meets_OverflowFault :
    (withWriters w7 wFull 1).fault.valid = false ∧ (withWriters w7 wFull 1).writers[0]? = some w7 ∧
    (withWriters w7 wFull 1).writers[1]? = some wFull ∧
    (withWriters wFull Writer.empty 1).writers[1]? = some Writer.empty ∧ Writer.empty.len = 0 ∧ wFull.len ≤ 1 := by decide

theorem test_meets_IndexFault :
    (withWriters w7 wFull 1).fault.valid = false ∧ (withWriters w7 wFull 1).writers[0]? = some w7 ∧ w7.len ≤ 1 := by
  decide

theorem test_meets_SpliceChecks :
    (withWriters w3 w7 9).fault.valid = false ∧ (withWriters w3 w7 9).writers[0]? = some w3 ∧
    (withWriters w3 w7 9).writers[1]? = some w7 ∧ w7.nheld ≠ 0#3 ∧
    (withWriters w3 wFull 9).writers[1]? = some wFull ∧ wFull.nheld = 0#3 ∧ w3.len < 1 := by decide

theorem test_meets_BindFault :
    State.reset.fault.valid = false ∧ 0 < State.reset.readers.length ∧
    2 ^ 32 < (2#32).toNat + (0xFFFFFFFF#32).toNat ∧ ¬ 2 ^ 32 < (1#32).toNat + (0xFFFFFFFF#32).toNat := by decide

theorem test_meets_OverrunFault :
    (withReader r3).fault.valid = false ∧ (withReader r3).readers[0]? = some r3 ∧
    r3.cursor.toNat ≤ r3.blen.toNat ∧ r3.left = 11 := by decide

theorem test_meets_OneResponsePerCommand :
    (withReader r3).Inv ∧ (∃ t, exec (.read 0 11) (withReader r3) = .next t) ∧
    (∃ t, exec (.read 0 12) (withReader r3) = .next t) := ⟨by decide, ⟨_, rfl⟩, ⟨_, rfl⟩⟩

theorem test_meets_FrameOfEveryCommand :
    (∃ t r', exec (.read 0 11) (withReader r3) = .next t ∧ (withReader r3).readers[0]? = some r3 ∧
      t.readers[0]? = some r') ∧
    (∃ t w', exec (.winsert 0 1 0#32) (withWriters w3 wFull 1) = .next t ∧
      (withWriters w3 wFull 1).writers[0]? = some w3 ∧ t.writers[0]? = some w') :=
  ⟨⟨_, _, rfl, rfl, rfl⟩, ⟨_, _, rfl, rfl, rfl⟩⟩

theorem test_meets_CommandsSeeOnlyTheirContexts :
    SameFor (.write 0 5 1#32) (withWriters w3 w7 9) (withWriters w3 wFull 9) ∧
    (∃ s', exec (.write 0 5 1#32) (withWriters w3 w7 9) = .next s') :=
  ⟨⟨rfl, rfl, by simp [writersNamed, withWriters], by simp [readersNamed]⟩, ⟨_, rfl⟩⟩

theorem test_meets_CommandsSeeOnlyTheirContexts_reader :
    SameFor (.read 0 11) (withReader r3)
      { withReader r3 with xmem := [(0x2000, 0xDE#8), (0x2001, 0xAD#8), (0x3000, 1#8)] } ∧
    (∃ s', exec (.read 0 11) (withReader r3) = .next s') := by
  refine ⟨⟨rfl, rfl, by simp [writersNamed], ?_⟩, ⟨_, rfl⟩⟩
  intro u hu
  obtain rfl : u = 0 := by simpa [readersNamed] using hu
  refine ⟨rfl, fun r hr k hk => ?_⟩
  obtain rfl : r3 = r := by simpa [withReader] using hr
  have hk2 : k < 2 := hk
  match k, hk2 with
  | 0, _ => rfl
  | 1, _ => rfl

theorem test_meets_HeldBitsAreNotRefreshed :
    (withReader r3).fault.valid = false ∧ (withReader r3).readers[0]? = some r3 ∧ 3 ≤ r3.nheld.toNat := by decide

theorem test_meets_WriteResult :
    -- the premises; then `F_WIDTH`, `F_VALUE` at n = 0 and n = 31, `F_OVERFLOW`, and completion with no byte,
    -- one byte, and four bytes from seven held bits
    ((withWriters w7 w3 1).fault.valid = false ∧ (withWriters w7 w3 1).writers[0]? = some w7 ∧ w7.Inv 1) ∧
    (32 < 33) ∧
    (2 ^ 0 ≤ (1#32).toNat ∧ 2 ^ 31 ≤ (0x80000000#32).toNat) ∧
    ((1#32).toNat < 2 ^ 1 ∧ 8 ≤ 1 + w7.nheld.toNat ∧ 1 < w7.len + (1 + w7.nheld.toNat) / 8) ∧
    ((withWriters w7 w3 5).writers[0]? = some w7 ∧ w7.Inv 5 ∧ (0xFFFFFFFF#32).toNat < 2 ^ 32 ∧
      w7.len + (32 + w7.nheld.toNat) / 8 ≤ 5) ∧
    ((withWriters w3 w3 1).writers[0]? = some w3 ∧ w3.Inv 1 ∧ (0xF#32).toNat < 2 ^ 4 ∧ 4 + w3.nheld.toNat < 8 ∧
      w3.len + (4 + w3.nheld.toNat) / 8 ≤ 1) := by decide

theorem test_meets_AlignZeroResult :
    (withWriters w3 wFull 1).fault.valid = false ∧
    ((withWriters w3 wFull 1).writers[1]? = some wFull ∧ wFull.nheld = 0#3) ∧
    ((withWriters w7 wFull 1).writers[0]? = some w7 ∧ w7.nheld ≠ 0#3 ∧ (withWriters w7 wFull 1).wcap < w7.len + 1) ∧
    ((withWriters w3 wFull 1).writers[0]? = some w3 ∧ w3.nheld ≠ 0#3 ∧ w3.len + 1 ≤ (withWriters w3 wFull 1).wcap) := by
  decide

theorem test_meets_AlignOneResult :
    (withWriters w7 wFull 2).fault.valid = false ∧
    ((withWriters w7 wFull 2).writers[1]? = some wFull ∧ wFull.nheld = 0#3) ∧
    ((withWriters w7 wFull 1).writers[0]? = some w7 ∧ w7.nheld ≠ 0#3 ∧ (withWriters w7 wFull 1).wcap < w7.len + 1) ∧
    ((withWriters w7 wFull 2).writers[0]? = some w7 ∧ w7.nheld ≠ 0#3 ∧ w7.len + 1 ≤ (withWriters w7 wFull 2).wcap) := by
  decide

theorem test_meets_LengthResult :
    (withWriters w7 w3 1).fault.valid = false ∧ (withWriters w7 w3 1).writers[0]? = some w7 ∧
    (withWriters w7 w3 1).Inv := by decide

theorem test_meets_ByteResult :
    (withWriters w7 w3 1).fault.valid = false ∧ (withWriters w7 w3 1).writers[0]? = some w7 ∧
    w7.buf[(0#32).toNat]? = some 0x11#8 ∧ w7.buf.length ≤ (1#32).toNat := by decide

theorem test_meets_ClearResult :
    (withWriters w7 w3 1).fault.valid = false ∧ 1 < (withWriters w7 w3 1).writers.length := by decide

theorem test_meets_SpliceResult :
    (withWriters w7 wFull 2).fault.valid = false ∧ (withWriters w7 wFull 2).writers[0]? = some w7 ∧
    (withWriters w7 wFull 2).writers[1]? = some wFull ∧ 1 ≠ 0 ∧ wFull.nheld = 0#3 ∧ (1#32).toNat ≤ w7.len ∧
    w7.len + wFull.len ≤ 2 := by decide

theorem test_meets_BindResult :
    (withReader r3).fault.valid = false ∧ 0 < (withReader r3).readers.length ∧
    (0xFFFFFFFF#32).toNat + (1#32).toNat ≤ 2 ^ 32 ∧ 2 ^ 32 < (0xFFFFFFFF#32).toNat + (2#32).toNat := by decide

theorem test_meets_ReadResult :
    -- the premises; then `F_WIDTH`, the held bits alone, `F_OVERRUN` one bit past the end, and a load up to the end
    ((withReader r3).fault.valid = false ∧ (withReader r3).readers[0]? = some r3 ∧
      r3.base.toNat + r3.blen.toNat ≤ 2 ^ 32) ∧
    (32 < 33) ∧ (3 ≤ r3.nheld.toNat) ∧
    (r3.nheld.toNat < 12 ∧ r3.blen.toNat < r3.cursor.toNat + (12 - r3.nheld.toNat + 7) / 8) ∧
    (r3.nheld.toNat < 11 ∧ r3.cursor.toNat + (11 - r3.nheld.toNat + 7) / 8 ≤ r3.blen.toNat) := by decide

theorem test_meets_LookaheadResult :
    (withReader r3).fault.valid = false ∧ (withReader r3).readers[0]? = some r3 ∧ r3.Inv := by decide

theorem test_meets_LookaheadPastTheEndCompletes :
    (withReader rEnd).fault.valid = false ∧ (withReader rEnd).readers[0]? = some rEnd ∧ rEnd.Inv ∧ rEnd.left < 4 := by
  decide

theorem test_meets_ZeroWidthIsNoOp :
    (withReader rEnd).fault.valid = false ∧ 0 < (withReader rEnd).writers.length ∧
    0 < (withReader rEnd).readers.length := by decide

theorem test_meets_ReaderBeforeBinding : 0 < (Params.mk 1 1 1).nr ∧ 1 ≤ 32 := by decide

theorem test_meets_StreamBitOrder :
    [0xB9#8, 0x40#8][9 / 8]? = some 0x40#8 ∧
    ((withWriters w7 w3 5).fault.valid = false ∧ (withWriters w7 w3 5).writers[0]? = some w7 ∧ w7.Inv 5 ∧
      nextOf (exec (.write 0 1 1#32) (withWriters w7 w3 5)) =
        some { withWriters { buf := [0x11#8, 0xFF#8], held := 0#8, nheld := 0#3 } w3 5 with
          trace := [{ st := .ok, data := 0#32 }] }) ∧
    (withReader r3).fault.valid = false ∧ (withReader r3).readers[0]? = some r3 ∧ r3.Inv ∧ r3.Fresh xmemT12 ∧
    nextOf (exec (.read 0 11) (withReader r3)) = some { withReader (readerAt 2 2 0xAD#8 0#3) with
      trace := [{ st := .ok, data := 0x6AD#32 }] } := by decide

theorem test_meets_WriterIsItsBitString :
    w7.Inv 1 ∧ ({ buf := [0x11#8], held := 0xFE#8, nheld := 7#3 } : Writer).Inv 1 ∧
    w7.buf = [0x11#8] ∧ w7.wbits = ({ buf := [0x11#8], held := 0xFE#8, nheld := 7#3 } : Writer).wbits := by decide

theorem test_meets_WriteAppendsTheField :
    ∃ t w', (withWriters w7 w3 5).fault.valid = false ∧ (withWriters w7 w3 5).writers[0]? = some w7 ∧ w7.Inv 5 ∧
      exec (.write 0 32 0x12345678#32) (withWriters w7 w3 5) = .next t ∧ t.fault.valid = false ∧
      t.writers[0]? = some w' := ⟨_, _, rfl, rfl, by decide, rfl, rfl, rfl⟩

theorem test_meets_AlignAppendsThePad :
    (withWriters w7 wFull 2).fault.valid = false ∧
    ((withWriters w7 wFull 2).writers[0]? = some w7 ∧ w7.Inv 2 ∧ (w7.nheld ≠ 0#3 → w7.len + 1 ≤ 2)) ∧
    ((withWriters w7 wFull 1).writers[1]? = some wFull ∧ wFull.Inv 1 ∧ (wFull.nheld ≠ 0#3 → wFull.len + 1 ≤ 1)) := by
  decide

theorem test_meets_AlignIsIdempotent :
    ∃ t, (withWriters w7 wFull 2).fault.valid = false ∧
      Instr.walign1 0 ∈ [Instr.walign0 0, Instr.walign1 0] ∧
      exec (.walign1 0) (withWriters w7 wFull 2) = .next t ∧ t.fault.valid = false :=
  ⟨_, rfl, by decide, rfl, rfl⟩

theorem test_meets_ReadDeliversTheNextBits :
    ((withReader r3).fault.valid = false ∧ (withReader r3).readers[0]? = some r3 ∧ r3.Inv ∧ r3.Fresh xmemT12) ∧
    11 ≤ r3.left ∧ r3.left < 12 := by decide

theorem test_meets_LookaheadDeliversTheNextBits :
    (withReader rEnd).fault.valid = false ∧ (withReader rEnd).readers[0]? = some rEnd ∧ rEnd.Inv ∧
    rEnd.Fresh xmemT12 := by decide

theorem test_meets_LookaheadThenRead :
    (withReader r3).fault.valid = false ∧ (withReader r3).readers[0]? = some r3 ∧ r3.Inv ∧ 11 ≤ r3.left ∧
    r3.left < 12 := by decide

theorem test_meets_SpliceIsTakeInsertDrop :
    (withWriters w7 wFull 2).fault.valid = false ∧ (withWriters w7 wFull 2).writers[0]? = some w7 ∧
    (withWriters w7 wFull 2).writers[1]? = some wFull ∧ wFull.nheld = 0#3 ∧ (0#32).toNat ≤ w7.len ∧
    w7.len + wFull.len ≤ 2 := by decide

theorem test_meets_ReuseIsFresh :
    (∃ t, (withWriters w7 w3 1).fault.valid = false ∧ 1 < (Params.mk 2 1 1).nw ∧
      exec (.wclear 1) (withWriters w7 w3 1) = .next t ∧ t.fault.valid = false) ∧
    (∃ t, exec (.rbind 0 0x2000#32 9#32) (withReader r3) = .next t ∧ t.fault.valid = false) :=
  ⟨⟨_, rfl, by decide, rfl, rfl⟩, ⟨_, rfl, rfl⟩⟩

theorem test_meets_BitCountConservation :
    ∃ t, (∀ i ∈ [Instr.write 0 3 5#32, .walign1 0, .write 0 8 0xCA#32], appendsTo 0 i = true) ∧
      State.reset.fault.valid = false ∧ State.reset.writers[0]? = some Writer.empty ∧
      t.writers[0]? = some { buf := [0xBF#8, 0xCA#8], held := 0#8, nheld := 0#3 } ∧
      tally 0 [.write 0 3 5#32, .walign1 0, .write 0 8 0xCA#32] State.reset = some (t, 16) :=
  ⟨_, by decide, rfl, rfl, rfl, rfl⟩

theorem test_meets_RoundTrip :
    State.reset.Inv ∧ State.reset.fault.valid = false ∧ State.reset.writers[0]? = some Writer.empty ∧
    0 < State.reset.readers.length ∧
    (∀ f ∈ [(0, 0#32), (3, 5#32), (32, 0xFFFFFFFF#32)], f.1 ≤ 32 ∧ f.2.toNat < 2 ^ f.1) ∧
    (([(0, 0#32), (3, 5#32), (32, 0xFFFFFFFF#32)].map Prod.fst).sum + 7) / 8 ≤ State.reset.wcap ∧
    Instr.walign1 0 ∈ [Instr.walign0 0, Instr.walign1 0] ∧ (0xFFFFFFFB#32).toNat + 5 ≤ 2 ^ 32 := by decide

theorem test_meets_CommandsKeepWriterInvariant :
    (∀ w ∈ (withWriters w7 w3 5).writers, w.Inv (withWriters w7 w3 5).wcap) ∧
    ∃ t, exec (.write 0 32 0x12345678#32) (withWriters w7 w3 5) = .next t := ⟨by decide, _, rfl⟩

theorem test_meets_CommandsKeepReaderInvariant :
    (∀ r ∈ (withReader r3).readers, r.Inv) ∧
    ∃ t, (withReader r3).readers[0]? = some r3 ∧ r3.Fresh (withReader r3).xmem ∧
      exec (.read 0 11) (withReader r3) = .next t ∧ t.readers[0]? = some (readerAt 2 2 0xAD#8 0#3) :=
  ⟨by decide, _, rfl, by decide, rfl, rfl⟩

theorem test_meets_StepKeepsInvariant :
    ((withReader r3).present (encode (.read 0 11))).Inv ∧
    ∃ t, step ((withReader r3).present (encode (.read 0 11))) = .next t := ⟨by decide, _, rfl⟩

theorem test_meets_EveryStepCompletes : (withReader rEnd).Inv ∧ (withWriters w7 w3 1).Inv := by decide

theorem test_meets_EveryRunCompletes : Params.InRange ⟨2, 1, 2 ^ 32 - 1⟩ ∧ Memory.wf xmemT12 = true := by decide

end Sys2Proof.Tests
end

section
/-! PROOFS. The statements of the family 00_scope.md: what a step runs (R5), what a command leaves unchanged and what it
depends on (R7), and that commands, steps and runs complete (R6). -/

namespace Sys2Proof.Machine

/-! ### The step, one equation per case (log 3) -/

theorem step_idle {s : State} (h : s.host = []) : step s = .next s := by
  simp [step, h]

theorem step_action {s : State} {a : HostAction} {rest : List HostAction} (h : s.host = a :: rest) :
    step s = takeAction a (s.withHost rest) := by
  simp [step, h]

theorem runWord_legal {c : CmdWord} {i : Instr} (h : decode c = some i) (s : State) : runWord c s = exec i s := by
  simp [runWord, h]

theorem runWord_illegal {c : CmdWord} (h : decode c = none) (s : State) :
    runWord c s = s.command (.raise .illegal) := by
  simp [runWord, h, execIllegal]

theorem step_present (s : State) (c : CmdWord) : step (s.present c) = runWord c s :=
  step_action (State.present_host s c)

/-- A whole command word is placed as it is: its 96 bits lose nothing (30_encoding.md R45). -/
theorem State.withFetchWord_toNat (s : State) (c : CmdWord) : s.withFetchWord 96 c.toNat = s.present c := by
  rw [State.withFetchWord, Nat.mod_eq_of_lt c.isLt, BitVec.ofNat_toNat, BitVec.setWidth_eq]

/-- Settles O6, from the equations of the step. -/
theorem stepRunsTheDecodedCommand : Obligations.StepRunsTheDecodedCommand := by
  refine ⟨fun s c rest i hs hc => ?_, fun s c rest hs => step_action hs, fun s c i hc => ?_⟩
  · exact (step_action hs).trans (runWord_legal hc _)
  · rw [State.withFetchWord_toNat, step_present, runWord_legal hc]

/-! ### What a completed command leaves unchanged (00_scope.md R7, 10_state.md R10, R17) -/

theorem State.setWriter_frame (s : State) {u j : Nat} (w : Writer) (h : some u ≠ some j) :
    (s.setWriter u w).writers[j]? = s.writers[j]? := by
  rw [State.setWriter_writers, List.getElem?_set_ne (fun e => h (congrArg some e))]

theorem State.setReader_frame (s : State) {u j : Nat} (r : Reader) (h : some u ≠ some j) :
    (s.setReader u r).readers[j]? = s.readers[j]? := by
  rw [State.setReader_readers, List.getElem?_set_ne (fun e => h (congrArg some e))]

theorem Completed.writers_frame {i : Instr} {s : State} {p : State × Word} (h : Completed i s p) {j : Nat}
    (hj : writerWritten i ≠ some j) : p.1.writers[j]? = s.writers[j]? := by
  cases h with
  | write | walign0 | walign1 | wclear | winsert => exact s.setWriter_frame _ hj
  | wlen | wbyte | rbind | read | pread => rfl

theorem Completed.readers_frame {i : Instr} {s : State} {p : State × Word} (h : Completed i s p) {j : Nat}
    (hj : readerWritten i ≠ some j) : p.1.readers[j]? = s.readers[j]? := by
  cases h with
  | rbind | read => exact s.setReader_frame _ hj
  | write | walign0 | walign1 | wclear | winsert | wlen | wbyte | pread => rfl

/-- A completed `READ` keeps the binding of its reader (42_reader.md R80). -/
theorem Completed.read_binding {s : State} {p : State × Word} {j n : Nat} {r r' : Reader}
    (h : Completed (.read j n) s p) (hr : s.readers[j]? = some r) (hr' : p.1.readers[j]? = some r') :
    r'.base = r.base ∧ r'.blen = r.blen := by
  cases h with
  | read hr₀ ht =>
    obtain rfl := Option.some.inj (hr₀.symm.trans hr)
    have hlt : j < s.readers.length := (List.getElem?_eq_some_iff.mp hr).1
    obtain rfl : _ = r' := by simpa [hlt] using hr'
    exact Reader.take_binding ht

/-- A completed `WINSERT` keeps the held bits of its destination (41_splice.md R78). -/
theorem Completed.winsert_held {s : State} {p : State × Word} {j src : Nat} {q : Word} {w w' : Writer}
    (h : Completed (.winsert j src q) s p) (hw : s.writers[j]? = some w) (hw' : p.1.writers[j]? = some w') :
    w'.held = w.held ∧ w'.nheld = w.nheld := by
  cases h with
  | winsert hd =>
    obtain rfl := Option.some.inj (hd.symm.trans hw)
    have hlt : j < s.writers.length := (List.getElem?_eq_some_iff.mp hw).1
    obtain rfl : _ = w' := by simpa [hlt] using hw'
    exact ⟨rfl, rfl⟩

/-- What the contexts are after a command: as they were, or as its pseudocode leaves them; the rest of the state but
`FAULT` and the trace is as it was. -/
theorem exec_contexts {i : Instr} {s t : State} (h : exec i s = .next t) :
    t.xmem = s.xmem ∧ t.host = s.host ∧ t.wcap = s.wcap ∧
    ((t.writers = s.writers ∧ t.readers = s.readers) ∨
      ∃ p, Completed i s p ∧ t.writers = p.1.writers ∧ t.readers = p.1.readers) := by
  rcases exec_next h with ⟨_, rfl⟩ | ⟨_, p, hp, rfl⟩ | ⟨_, c, rfl⟩
  · exact ⟨rfl, rfl, rfl, .inl ⟨rfl, rfl⟩⟩
  · obtain ⟨_, hx, hc, hh, _⟩ := hp.keeps
    exact ⟨hx, hh, hc, .inr ⟨p, hp, rfl, rfl⟩⟩
  · exact ⟨rfl, rfl, rfl, .inl ⟨rfl, rfl⟩⟩

/-- Settles O24: the frame of a completed command, and the contexts untouched by a fault or a halted reply. -/
theorem frameOfEveryCommand : Obligations.FrameOfEveryCommand := by
  intro i s t h
  obtain ⟨hx, hh, hc, ⟨hw, hr⟩ | ⟨p, hp, hw, hr⟩⟩ := exec_contexts h
  · refine ⟨fun a => by rw [hx], hx, hh, hc, by rw [hw], by rw [hr], fun _ _ => by rw [hw], fun _ _ => by rw [hr], ?_, ?_⟩
    · intro j n r r' _ hj hj'
      obtain rfl : r = r' := Option.some.inj (hj.symm.trans (hr ▸ hj'))
      exact ⟨rfl, rfl⟩
    · intro j src q w w' _ hj hj'
      obtain rfl : w = w' := Option.some.inj (hj.symm.trans (hw ▸ hj'))
      exact ⟨rfl, rfl⟩
  · obtain ⟨_, _, _, _, _, hnw, hnr⟩ := hp.keeps
    rw [hw, hr]
    refine ⟨fun a => by rw [hx], hx, hh, hc, hnw, hnr, fun _ => hp.writers_frame, fun _ => hp.readers_frame, ?_, ?_⟩
    · rintro j n r r' rfl hj hj'
      exact hp.read_binding hj hj'
    · rintro j src q w w' rfl hj hj'
      exact hp.winsert_held hj hj'

/-! ### What a command depends on (00_scope.md R7, 20_memory.md R31, R39) -/

/-- A lookahead sees no byte of `XMEM` outside its bound buffer (20_memory.md R31, R39). -/
theorem Reader.peek_congr {r : Reader} {x x' : Memory} (n : Nat)
    (h : ∀ k, k < r.blen.toNat → r.byteAt x k = r.byteAt x' k) : r.peek x n = r.peek x' n := by
  simp only [Reader.peek, Reader.take_congr _ h]

/-- Two results the command `i` cannot tell apart: the same value, `FAULT` and named contexts; or the same cause; or
the same stop. -/
inductive Agree (i : Instr) : Result (State × Word) → Result (State × Word) → Prop where
  | done {s t : State} (d : Word) (hf : t.fault = s.fault)
      (hw : ∀ u ∈ writersNamed i, t.writers[u]? = s.writers[u]?)
      (hr : ∀ u ∈ readersNamed i, t.readers[u]? = s.readers[u]?) : Agree i (.done (s, d)) (.done (t, d))
  | raise (c : Cause) : Agree i (.raise c) (.raise c)
  | stop (f : Fault) : Agree i (.stop f) (.stop f)

section Agree

variable {i : Instr} {s t : State}

theorem SameFor.agree (h : SameFor i s t) (d : Word) : Agree i (.done (s, d)) (.done (t, d)) := by
  obtain ⟨hf, _, hw, hr⟩ := h
  exact .done d hf.symm (fun u hu => (hw u hu).symm) (fun u hu => (hr u hu).1.symm)

/-- Setting a context of two states alike keeps them alike; the lookup after `set` needs no length (`NW` may differ). -/
theorem SameFor.agree_setWriter (h : SameFor i s t) (u : Nat) (w : Writer) (d : Word) :
    Agree i (.done (s.setWriter u w, d)) (.done (t.setWriter u w, d)) := by
  obtain ⟨hf, _, hw, hr⟩ := h
  refine .done d hf.symm (fun j hj => ?_) (fun j hj => (hr j hj).1.symm)
  rw [State.setWriter_writers, State.setWriter_writers, List.getElem?_set', List.getElem?_set', hw j hj]

theorem SameFor.agree_setReader (h : SameFor i s t) (u : Nat) (r : Reader) (d : Word) :
    Agree i (.done (s.setReader u r, d)) (.done (t.setReader u r, d)) := by
  obtain ⟨hf, _, hw, hr⟩ := h
  refine .done d hf.symm (fun j hj => (hw j hj).symm) (fun j hj => ?_)
  rw [State.setReader_readers, State.setReader_readers, List.getElem?_set', List.getElem?_set', (hr j hj).1]

theorem Agree.guard {x y : Result (State × Word)} (h : Agree i x y) (p : Prop) [Decidable p] (c : Cause) :
    Agree i (if p then .raise c else x) (if p then .raise c else y) := by
  split
  · exact .raise c
  · exact h

theorem Agree.andThen {α : Type} {f g : α → Result (State × Word)} (x : Result α) (h : ∀ a, Agree i (f a) (g a)) :
    Agree i (x.andThen f) (x.andThen g) := by
  cases x with
  | done a => exact h a
  | raise c => exact .raise c
  | stop e => exact .stop e

/-- A named writer is the same in both states, so the body meets the same writer or `F_UNIT` is raised in both. -/
theorem SameFor.agree_withWriter (h : SameFor i s t) {u : Nat} (hu : u ∈ writersNamed i)
    {f g : Writer → Result (State × Word)} (hb : ∀ w, Agree i (f w) (g w)) :
    Agree i (s.withWriter u f) (t.withWriter u g) := by
  obtain ⟨_, _, hw, _⟩ := h
  unfold State.withWriter
  rw [← hw u hu]
  cases s.writers[u]? with
  | none => exact .raise .unit
  | some w => exact hb w

/-- A named reader is the same in both states and its bound bytes read the same. -/
theorem SameFor.agree_withReader (h : SameFor i s t) {u : Nat} (hu : u ∈ readersNamed i)
    {f g : Reader → Result (State × Word)}
    (hb : ∀ r, (∀ k, k < r.blen.toNat → r.byteAt s.xmem k = r.byteAt t.xmem k) → Agree i (f r) (g r)) :
    Agree i (s.withReader u f) (t.withReader u g) := by
  obtain ⟨_, _, _, hr⟩ := h
  obtain ⟨he, hbytes⟩ := hr u hu
  unfold State.withReader
  rw [← he]
  cases hs : s.readers[u]? with
  | none => exact .raise .unit
  | some r => exact hb r (hbytes r hs)

/-- The commands that compute a named writer anew from itself and `WCAP`: `WRITE` and the align commands. -/
theorem SameFor.agree_updateWriter (h : SameFor i s t) {u : Nat} (hu : u ∈ writersNamed i)
    (f : Writer → Nat → Result Writer) :
    Agree i (s.withWriter u fun w => (f w s.wcap).andThen fun w' => .done (s.setWriter u w', 0#32))
      (t.withWriter u fun w => (f w t.wcap).andThen fun w' => .done (t.setWriter u w', 0#32)) := by
  have ⟨_, hcap, _, _⟩ := h
  rw [hcap]
  exact h.agree_withWriter hu fun w => Agree.andThen _ fun w' => h.agree_setWriter u w' _

/-- The pseudocode of a command comes to agreeing results in states that look the same to it. -/
theorem exec_agree (h : SameFor i s t) :
    ∃ x y, exec i s = s.command x ∧ exec i t = t.command y ∧ Agree i x y := by
  have ⟨_, hcap, _, _⟩ := h
  cases i with
  | write u n v =>
    exact ⟨_, _, rfl, rfl, h.agree_updateWriter (by simp [writersNamed]) (fun w cap => w.put cap n v.toNat)⟩
  | walign0 u => exact ⟨_, _, rfl, rfl, h.agree_updateWriter (by simp [writersNamed]) Writer.alignZero⟩
  | walign1 u => exact ⟨_, _, rfl, rfl, h.agree_updateWriter (by simp [writersNamed]) Writer.alignOne⟩
  | wlen u => exact ⟨_, _, rfl, rfl, h.agree_withWriter (by simp [writersNamed]) fun w => h.agree _⟩
  | wbyte u k =>
    refine ⟨_, _, rfl, rfl, h.agree_withWriter (by simp [writersNamed]) fun w => ?_⟩
    cases w.buf[k.toNat]? with
    | none => exact .raise .index
    | some b => exact h.agree _
  | wclear u => exact ⟨_, _, rfl, rfl, h.agree_withWriter (by simp [writersNamed]) fun _ => h.agree_setWriter u _ _⟩
  | winsert u src p =>
    refine ⟨_, _, rfl, rfl, h.agree_withWriter (by simp [writersNamed]) fun d =>
      h.agree_withWriter (by simp [writersNamed]) fun e => ?_⟩
    rw [hcap]
    exact ((((h.agree_setWriter u _ _).guard _ _).guard _ _).guard _ _).guard _ _
  | rbind u base length =>
    exact ⟨_, _, rfl, rfl, h.agree_withReader (by simp [readersNamed]) fun _ _ => (h.agree_setReader u _ _).guard _ _⟩
  | read u n =>
    refine ⟨_, _, rfl, rfl, h.agree_withReader (by simp [readersNamed]) fun r hbytes => ?_⟩
    rw [Reader.take_congr n hbytes]
    exact Agree.andThen _ fun p => h.agree_setReader u p.1 p.2
  | pread u n =>
    refine ⟨_, _, rfl, rfl, h.agree_withReader (by simp [readersNamed]) fun r hbytes => ?_⟩
    rw [Reader.peek_congr n hbytes]
    exact Agree.andThen _ fun d => h.agree d

end Agree

/-- Settles O25: agreeing results give the same response, the same `FAULT` and the same named contexts. -/
theorem commandsSeeOnlyTheirContexts : Obligations.CommandsSeeOnlyTheirContexts := by
  intro i s t s' h hs
  have ⟨hf, _, hw, hr⟩ := h
  obtain ⟨x, y, hx, hy, ha⟩ := exec_agree h
  rw [hx] at hs
  rw [hy]
  rcases State.command_next hs with ⟨hv, rfl⟩ | ⟨hv, p, rfl, rfl⟩ | ⟨hv, c, rfl, rfl⟩
  · exact ⟨_, State.command_halted _ (hf ▸ hv), hf.symm, by simp [hf],
      fun u hu => (hw u hu).symm, fun u hu => (hr u hu).1.symm⟩
  · cases ha with
    | done d hf' hw' hr' => exact ⟨_, State.command_done _ (hf ▸ hv), hf', by simp [State.finish], hw', hr'⟩
  · cases ha with
    | raise => exact ⟨_, State.command_raise c (hf ▸ hv), rfl, by simp,
        fun u hu => (hw u hu).symm, fun u hu => (hr u hu).1.symm⟩

/-! ### Every command and every step completes (00_scope.md R6) -/

theorem Writer.alignZero_ne_stop (w : Writer) (wcap : Nat) (f : Fault) : w.alignZero wcap ≠ .stop f := by
  rw [Writer.alignZero_eq_put]
  exact w.put_ne_stop _ _ _ f

theorem Writer.alignOne_ne_stop (w : Writer) (wcap : Nat) (f : Fault) : w.alignOne wcap ≠ .stop f :=
  w.put_ne_stop _ _ _ f

theorem Reader.peek_ne_stop {r : Reader} {x : Memory} {n : Nat} (hb : r.base.toNat + r.blen.toNat ≤ 2 ^ 32)
    (f : Fault) : r.peek x n ≠ .stop f := by
  rcases Nat.lt_or_ge 32 n with hn | hn
  · simp [Reader.peek_width hn]
  · rw [Reader.peek_eq hn]
    intro h
    rcases Result.andThen_eq_stop h with h | ⟨_, _, h⟩
    · exact Reader.take_ne_stop hb f h
    · cases h

theorem State.withWriter_ne_stop {s : State} {u : Nat} {body : Writer → Result (State × Word)} {f : Fault}
    (h : ∀ w, body w ≠ .stop f) : s.withWriter u body ≠ .stop f := by
  unfold State.withWriter
  split
  · simp
  · exact h _

theorem State.withReader_ne_stop {s : State} {u : Nat} {body : Reader → Result (State × Word)} {f : Fault}
    (h : ∀ r ∈ s.readers, body r ≠ .stop f) : s.withReader u body ≠ .stop f := by
  unfold State.withReader
  split
  · simp
  · next r hr => exact h r (List.mem_of_getElem? hr)

theorem Result.andThen_ne_stop {α β : Type} {x : Result α} {g : α → Result β} {f : Fault} (hx : x ≠ .stop f)
    (hg : ∀ a, g a ≠ .stop f) : x.andThen g ≠ .stop f := by
  intro h
  rcases Result.andThen_eq_stop h with h | ⟨a, _, h⟩
  · exact hx h
  · exact hg a h

theorem Result.guard_ne_stop {α : Type} {x : Result α} {f : Fault} (h : x ≠ .stop f) (p : Prop) [Decidable p]
    (c : Cause) : (if p then .raise c else x) ≠ .stop f := by
  split
  · simp
  · exact h

/-- No command leaves the model while every binding lies inside `XMEM` (10_state.md R18, log 6). -/
theorem exec_ne_stop {i : Instr} {s : State} (hr : ∀ r ∈ s.readers, r.Inv) :
    ∃ x, exec i s = s.command x ∧ ∀ f, x ≠ .stop f := by
  cases i with
  | write u n v =>
    exact ⟨_, rfl, fun f => State.withWriter_ne_stop fun w => Result.andThen_ne_stop (w.put_ne_stop _ _ _ f) (by simp)⟩
  | walign0 u =>
    exact ⟨_, rfl, fun f => State.withWriter_ne_stop fun w => Result.andThen_ne_stop (w.alignZero_ne_stop _ f) (by simp)⟩
  | walign1 u =>
    exact ⟨_, rfl, fun f => State.withWriter_ne_stop fun w => Result.andThen_ne_stop (w.alignOne_ne_stop _ f) (by simp)⟩
  | wlen u => exact ⟨_, rfl, fun f => State.withWriter_ne_stop (by simp)⟩
  | wbyte u k =>
    refine ⟨_, rfl, fun f => State.withWriter_ne_stop fun w => ?_⟩
    split <;> simp
  | wclear u => exact ⟨_, rfl, fun f => State.withWriter_ne_stop (by simp)⟩
  | winsert u src p =>
    refine ⟨_, rfl, fun f => State.withWriter_ne_stop fun d => State.withWriter_ne_stop fun e => ?_⟩
    iterate 4 refine Result.guard_ne_stop ?_ _ _
    simp
  | rbind u base length =>
    exact ⟨_, rfl, fun f => State.withReader_ne_stop fun r _ => Result.guard_ne_stop (by simp) _ _⟩
  | read u n =>
    exact ⟨_, rfl, fun f => State.withReader_ne_stop fun r hm =>
      Result.andThen_ne_stop (Reader.take_ne_stop (hr r hm).1 f) (by simp)⟩
  | pread u n =>
    exact ⟨_, rfl, fun f => State.withReader_ne_stop fun r hm =>
      Result.andThen_ne_stop (Reader.peek_ne_stop (hr r hm).1 f) (by simp)⟩

theorem State.command_completes (s : State) {x : Result (State × Word)} (h : ∀ f, x ≠ .stop f) :
    ∃ t, s.command x = .next t := by
  cases hv : s.fault.valid with
  | true => exact ⟨_, State.command_halted x hv⟩
  | false =>
    cases x with
    | done p => exact ⟨_, State.command_done p hv⟩
    | raise c => exact ⟨_, State.command_raise c hv⟩
    | stop f => exact absurd rfl (h f)

theorem exec_completes (i : Instr) {s : State} (h : s.Inv) : ∃ t, exec i s = .next t := by
  obtain ⟨_, _, hr, _⟩ := h
  obtain ⟨x, hx, hns⟩ := exec_ne_stop (i := i) hr
  rw [hx]
  exact s.command_completes hns

theorem runWord_completes (c : CmdWord) {s : State} (h : s.Inv) : ∃ t, runWord c s = .next t := by
  cases hd : decode c with
  | some i =>
    rw [runWord_legal hd]
    exact exec_completes i h
  | none =>
    rw [runWord_illegal hd]
    exact s.command_completes (by simp)

theorem takeAction_completes (a : HostAction) {s : State} (h : s.Inv) : ∃ t, takeAction a s = .next t := by
  cases a with
  | command c => exact runWord_completes c h
  | writeXmem addr b => exact ⟨_, rfl⟩
  | reset => exact ⟨_, rfl⟩

/-- The invariant does not speak of the host's remaining actions. -/
theorem State.Inv.withHost {s : State} (h : s.Inv) (rest : List HostAction) : (s.withHost rest).Inv := h

theorem step_completes {s : State} (h : s.Inv) : ∃ t, step s = .next t := by
  cases hs : s.host with
  | nil => exact ⟨s, step_idle hs⟩
  | cons a rest =>
    rw [step_action hs]
    exact takeAction_completes a (h.withHost rest)

/-- Settles O56: the only stop of the model, a load outside `XMEM`, is ruled out by the invariant of the readers. -/
theorem everyStepCompletes : Obligations.EveryStepCompletes :=
  ⟨fun i _ h => exec_completes i h, fun _ h => step_completes h⟩

/-! ### The invariant along a run (10_state.md R15, R23, R25) -/

theorem Writer.empty_inv (wcap : Nat) : Writer.empty.Inv wcap := ⟨by decide, Nat.zero_le _⟩

theorem Reader.bound_inv {base length : Word} (h : base.toNat + length.toNat ≤ 2 ^ 32) :
    (Reader.bound base length).Inv := ⟨h, Nat.zero_le _, fun h0 => absurd rfl h0⟩

theorem splice_length {d e : List Byte} {p : Nat} : (splice d e p).length = d.length + e.length := by
  simp only [splice, List.length_append, List.length_take, List.length_drop]
  omega

/-- A read that completes keeps the reader invariant (49_laws.md R100). -/
theorem Reader.take_inv {r : Reader} {x : Memory} {n : Nat} {p : Reader × Word} (hi : r.Inv)
    (h : r.take x n = .done p) : p.1.Inv := by
  obtain ⟨hb, hc, hn⟩ := hi
  have hlen : r.blen.toNat < 2 ^ 32 := r.blen.isLt
  obtain ⟨hn32, hh | ⟨hh, hl⟩⟩ := Reader.take_done h
  · rw [Reader.take_held hh] at h
    cases h
    refine ⟨hb, hc, fun hne => hn fun h0 => hne ?_⟩
    simp [h0]
  · rw [Reader.take_load hn32 hh hb hl] at h
    cases h
    have hcur : (BitVec.ofNat 32 (r.cursor.toNat + (n - r.nheld.toNat + 7) / 8)).toNat =
        r.cursor.toNat + (n - r.nheld.toNat + 7) / 8 := by
      rw [BitVec.toNat_ofNat]
      exact Nat.mod_eq_of_lt (by omega)
    refine ⟨hb, ?_, fun _ => ?_⟩
    · exact Nat.le_trans (Nat.le_of_eq hcur) hl
    · simp only [hcur]
      omega

theorem Cause.code_range (c : Cause) : 1 ≤ c.code.toNat ∧ c.code.toNat ≤ 11 := by
  cases c <;> decide

theorem forall_mem_set {α : Type} {P : α → Prop} {l : List α} {u : Nat} {a : α} (h : ∀ b ∈ l, P b) (ha : P a) :
    ∀ b ∈ l.set u a, P b := by
  intro b hb
  rcases List.mem_or_eq_of_mem_set hb with hm | rfl
  · exact h b hm
  · exact ha

/-- A completed command keeps the writer invariant of every context (49_laws.md R95). -/
theorem Completed.writers_inv {i : Instr} {s : State} {p : State × Word} (h : Completed i s p)
    (hi : ∀ w ∈ s.writers, w.Inv s.wcap) : ∀ w ∈ p.1.writers, w.Inv s.wcap := by
  cases h with
  | write hw hput => exact forall_mem_set hi (Writer.put_inv (hi _ (List.mem_of_getElem? hw)) hput)
  | walign0 hw hput =>
    rw [Writer.alignZero_eq_put] at hput
    exact forall_mem_set hi (Writer.put_inv (hi _ (List.mem_of_getElem? hw)) hput)
  | walign1 hw hput => exact forall_mem_set hi (Writer.put_inv (hi _ (List.mem_of_getElem? hw)) hput)
  | wclear => exact forall_mem_set hi (Writer.empty_inv _)
  | winsert hd _ _ _ _ hc =>
    obtain ⟨hheld, _⟩ := hi _ (List.mem_of_getElem? hd)
    exact forall_mem_set hi ⟨hheld, Nat.le_trans (Nat.le_of_eq splice_length) hc⟩
  | wlen | wbyte | rbind | read | pread => exact hi

/-- A completed command keeps the reader invariant of every context (49_laws.md R100). -/
theorem Completed.readers_inv {i : Instr} {s : State} {p : State × Word} (h : Completed i s p)
    (hi : ∀ r ∈ s.readers, r.Inv) : ∀ r ∈ p.1.readers, r.Inv := by
  cases h with
  | rbind _ hb => exact forall_mem_set hi (Reader.bound_inv hb)
  | read hr ht => exact forall_mem_set hi (Reader.take_inv (hi _ (List.mem_of_getElem? hr)) ht)
  | write | walign0 | walign1 | wclear | winsert | wlen | wbyte | pread => exact hi

theorem Completed.inv {i : Instr} {s : State} {p : State × Word} (h : Completed i s p) (hi : s.Inv) : p.1.Inv := by
  obtain ⟨hp, hw, hr, hf, hx⟩ := hi
  obtain ⟨ef, ex, ec, _, _, ew, er⟩ := h.keeps
  rw [State.Inv, ef, ex, ec, ew, er]
  exact ⟨hp, h.writers_inv hw, h.readers_inv hr, hf, hx⟩

theorem State.takeFault_inv {s : State} (h : s.Inv) (c : Cause) : (s.takeFault c).Inv := by
  obtain ⟨hp, hw, hr, _, hx⟩ := h
  exact ⟨hp, hw, hr, ⟨nofun, fun _ => c.code_range⟩, hx⟩

theorem State.resetWith_inv {p : Params} {x : Memory} (hp : p.InRange) (hx : x.wf = true) :
    (State.resetWith p x).Inv := by
  refine ⟨by simpa using hp, fun w hw => ?_, fun r hr => ?_, ⟨fun _ => rfl, nofun⟩, hx⟩
  · rw [List.eq_of_mem_replicate hw]
    exact Writer.empty_inv _
  · rw [List.eq_of_mem_replicate hr]
    exact Reader.bound_inv (by decide)

/-- The reset input leaves what the invariant speaks of as the reset of an engine with the same parameters and memory. -/
theorem State.applyReset_inv {s : State} (h : s.Inv) : s.applyReset.Inv := by
  obtain ⟨hp, _, _, _, hx⟩ := h
  exact State.resetWith_inv (p := ⟨s.writers.length, s.readers.length, s.wcap⟩) hp hx

theorem State.hostWrite_inv {s : State} (h : s.Inv) (addr : Word) (b : Byte) : (s.hostWrite addr b).Inv := by
  obtain ⟨hp, hw, hr, hf, hx⟩ := h
  exact ⟨hp, hw, hr, hf, Memory.wf_put hx addr.isLt⟩

/-- The inversion of `runWord`: the halted reply, the completion of the decoded command, or a fault, `F_ILLEGAL` among
them (60_exceptions.md R111, R112, R115). -/
theorem runWord_next {c : CmdWord} {s t : State} (h : runWord c s = .next t) :
    (s.fault.valid = true ∧ t = s.haltedReply) ∨
    (s.fault.valid = false ∧ ∃ i p, decode c = some i ∧ Completed i s p ∧ t = State.finish p) ∨
    (s.fault.valid = false ∧ ∃ k, t = s.takeFault k) := by
  cases hd : decode c with
  | some i =>
    rw [runWord_legal hd] at h
    rcases exec_next h with h | ⟨hv, p, hp, ht⟩ | h
    · exact .inl h
    · exact .inr (.inl ⟨hv, i, p, rfl, hp, ht⟩)
    · exact .inr (.inr h)
  | none =>
    rw [runWord_illegal hd] at h
    rcases State.command_next h with h | ⟨_, p, hp, _⟩ | ⟨hv, k, _, ht⟩
    · exact .inl h
    · cases hp
    · exact .inr (.inr ⟨hv, k, ht⟩)

theorem runWord_inv {c : CmdWord} {s t : State} (hi : s.Inv) (h : runWord c s = .next t) : t.Inv := by
  rcases runWord_next h with ⟨_, rfl⟩ | ⟨_, i, p, _, hp, rfl⟩ | ⟨_, k, rfl⟩
  · exact hi
  · exact hp.inv hi
  · exact State.takeFault_inv hi k

/-- A command word is answered by one response and takes none of the host's later actions (30_encoding.md R52). -/
theorem runWord_one_response {c : CmdWord} {s t : State} (h : runWord c s = .next t) :
    t.host = s.host ∧ ∃ r, t.trace = s.trace ++ [r] := by
  rcases runWord_next h with ⟨_, rfl⟩ | ⟨_, i, p, _, hp, rfl⟩ | ⟨_, k, rfl⟩
  · exact ⟨rfl, _, rfl⟩
  · obtain ⟨_, _, _, hh, htr, _⟩ := hp.keeps
    exact ⟨hh, Response.completed p.2, by rw [State.finish, State.respond_trace, htr]⟩
  · exact ⟨rfl, _, rfl⟩

theorem takeAction_inv {a : HostAction} {s t : State} (hi : s.Inv) (h : takeAction a s = .next t) : t.Inv := by
  cases a with
  | command c => exact runWord_inv hi h
  | writeXmem addr b => cases h; exact State.hostWrite_inv hi addr b
  | reset => cases h; exact State.applyReset_inv hi

/-- An action leaves the host's later actions, and is answered by a response exactly when it is a command. -/
theorem takeAction_trace {a : HostAction} {s t : State} (h : takeAction a s = .next t) :
    t.host = s.host ∧ t.trace.length = s.trace.length + [a].countP HostAction.isCommand := by
  cases a with
  | command c =>
    obtain ⟨hh, r, htr⟩ := runWord_one_response h
    exact ⟨hh, by simp [htr, HostAction.isCommand]⟩
  | writeXmem addr b => cases h; exact ⟨rfl, rfl⟩
  | reset => cases h; exact ⟨rfl, rfl⟩

/-- Every step keeps the invariant of the whole state. -/
theorem step_inv {s t : State} (hi : s.Inv) (h : step s = .next t) : t.Inv := by
  cases hs : s.host with
  | nil =>
    rw [step_idle hs] at h
    cases h
    exact hi
  | cons a rest =>
    rw [step_action hs] at h
    exact takeAction_inv (hi.withHost rest) h

/-! ### Every run completes (70_reset_and_hazards.md R142) -/

theorem run_step {M : Host.Core} {s t : M.State} (h : M.step s = .next t) (k : Nat) : M.run (k + 1) s = M.run k t := by
  simp [Host.Core.run, h]

/-- From a state with the invariant the machine runs through everything the host will do: it keeps the invariant and
answers one response per command. -/
theorem run_completes (script : List HostAction) : ∀ s : State, s.Inv → s.host = script →
    ∃ t : State, Sys2Proof.core.run script.length s = .next t ∧ t.Inv ∧ t.host = [] ∧
      t.trace.length = s.trace.length + script.countP HostAction.isCommand := by
  induction script with
  | nil => exact fun s hi hs => ⟨s, rfl, hi, hs, rfl⟩
  | cons a rest ih =>
    intro s hi hs
    obtain ⟨t, ht⟩ := step_completes hi
    have hact : takeAction a (s.withHost rest) = .next t := (step_action hs).symm.trans ht
    obtain ⟨hh, htr⟩ := takeAction_trace hact
    obtain ⟨t', hrun, hi', hh', htr'⟩ := ih t (step_inv hi ht) hh
    refine ⟨t', (run_step (M := Sys2Proof.core) ht _).trans hrun, hi', hh', ?_⟩
    rw [htr', htr, State.withHost_trace, Nat.add_assoc, ← List.countP_append, List.singleton_append]

/-- Settles O57, by induction on the script from the state after reset, which meets the invariant. -/
theorem everyRunCompletes : Obligations.EveryRunCompletes := by
  intro p x script hp hx
  have hi : ((State.resetWith p x).withHost script).Inv := (State.resetWith_inv hp hx).withHost script
  obtain ⟨t, hrun, hi', hh, htr⟩ := run_completes script _ hi rfl
  exact ⟨t, hrun, hi', hh, by simpa using htr⟩

end Sys2Proof.Machine
end

section
/-! PROOFS. The statements of the family 10_state.md: the invariant (R15, R23, R25), the values after reset (R28), and the
held bits of a reader (R27). -/

namespace Sys2Proof.Machine

/-- Settles O55: the idle step, a command word, a byte written by the host and the reset input each keep the invariant. -/
theorem stepKeepsInvariant : Obligations.StepKeepsInvariant := fun _ _ => step_inv

/-! ### The state after reset (10_state.md R28) -/

theorem State.resetWith_writer {p : Params} {x : Memory} {i : Nat} {w : Writer}
    (h : (State.resetWith p x).writers[i]? = some w) : w = Writer.empty :=
  List.eq_of_mem_replicate (List.mem_of_getElem? h)

theorem State.resetWith_reader {p : Params} {x : Memory} {j : Nat} {r : Reader}
    (h : (State.resetWith p x).readers[j]? = some r) : r = Reader.unbound :=
  List.eq_of_mem_replicate (List.mem_of_getElem? h)

/-- Settles O9: every context after reset is the empty writer or the unbound reader. -/
theorem resetStateValues : Obligations.ResetStateValues := by
  intro p x
  refine ⟨by simp, by simp, fun i w hw => ?_, fun j r hr => ?_, rfl, rfl, rfl⟩
  · obtain rfl := State.resetWith_writer hw
    exact ⟨rfl, rfl, rfl, rfl⟩
  · obtain rfl := State.resetWith_reader hr
    exact ⟨rfl, rfl, rfl, rfl, rfl⟩

/-- Settles O10; `State.reset` is the case of the parameters of log 1 and the empty memory of log 2. -/
theorem resetSatisfiesInvariant : Obligations.ResetSatisfiesInvariant :=
  ⟨fun _ _ => State.resetWith_inv, State.resetWith_inv (by decide) rfl⟩

/-! ### Held bits (10_state.md R27, 20_memory.md R44) -/

/-- The bits a `READ` of `n` bits takes from the held byte when enough are held (42_reader.md R83 step 1). -/
def Reader.heldBits (r : Reader) (n : Nat) : Word :=
  BitVec.ofNat 32 (r.held.toNat / 2 ^ (r.nheld.toNat - n) % 2 ^ n)

/-- The reader after `n` of its held bits are consumed (42_reader.md R83 step 1). -/
def Reader.dropHeld (r : Reader) (n : Nat) : Reader :=
  { r with nheld := BitVec.ofNat 3 (r.nheld.toNat - n) }

/-- A `READ` served from the held bits, as a next state that names no byte of `XMEM`. -/
theorem exec_read_held {s : State} {u n : Nat} {r : Reader} (hv : s.fault.valid = false)
    (hr : s.readers[u]? = some r) (hn : n ≤ r.nheld.toNat) :
    exec (.read u n) s =
      .next ((s.setReader u (r.dropHeld n)).respond (Response.completed (r.heldBits n))) :=
  exec_read_done hv hr (Reader.take_held hn)

/-- Settles O26: `exec_read_held` over both memories, which leave the same reader and the same response. -/
theorem heldBitsAreNotRefreshed : Obligations.HeldBitsAreNotRefreshed := by
  intro s u n r x hv hr hn
  exact ⟨s.setReader u (r.dropHeld n), r.heldBits n, exec_read_held hv hr hn,
    exec_read_held (s := { s with xmem := x }) hv hr hn⟩

end Sys2Proof.Machine
end

section
/-! PROOFS. The statements of the family 20_memory.md: a byte of `XMEM` written by the host (R40, R44), and the order of
bits in bytes, in fields written and in fields read (R33). -/

namespace Sys2Proof.Machine

/-! ### The host's writes of `XMEM` (20_memory.md R40, R44) -/

theorem step_hostWrite {s : State} {addr : Word} {b : Byte} {rest : List HostAction}
    (h : s.host = .writeXmem addr b :: rest) : step s = .next ((s.withHost rest).hostWrite addr b) :=
  step_action h

/-- Settles O7: a write of canonical memory keeps the canonical form and is seen at its own address alone. -/
theorem hostWriteChangesOneByte : Obligations.HostWriteChangesOneByte := by
  refine ⟨fun s addr b rest hs hx => ?_, fun _ => step_idle⟩
  exact ⟨s.xmem.put addr.toNat b, step_hostWrite hs, Memory.wf_put hx addr.isLt, Memory.get_put hx⟩

/-! ### Bits within bytes (20_memory.md R33) -/

/-- A bit of a byte sequence lies in byte `p / 8`, the most significant bit first. -/
theorem bitsOf_getElem? {bytes : List Byte} {p : Nat} {b : Byte} (h : bytes[p / 8]? = some b) :
    (bitsOf bytes)[p]? = some (b.getLsbD (7 - p % 8)) := by
  obtain ⟨hlt, rfl⟩ := List.getElem?_eq_some_iff.mp h
  have hbit : p % 8 < 8 := Nat.mod_lt _ (by omega)
  calc (bitsOf bytes)[p]? = ((bitsOf bytes).drop (8 * (p / 8)))[p % 8]? := by
        rw [List.getElem?_drop, Nat.div_add_mod]
    _ = (be 8 bytes[p / 8].toNat ++ bitsOf (bytes.drop (p / 8 + 1)))[p % 8]? := by
        rw [bitsOf_drop, List.drop_eq_getElem_cons hlt, bitsOf_cons]
    _ = some (bytes[p / 8].getLsbD (7 - p % 8)) := by
        rw [List.getElem?_append_left (by simpa using hbit), be_getElem? hbit]
        rfl

theorem Reader.stream_getElem? {r : Reader} {x : Memory} {p : Nat} (h : p < 8 * r.blen.toNat) :
    (r.stream x)[p]? = some ((r.byteAt x (p / 8)).getLsbD (7 - p % 8)) := by
  have hbyte : p / 8 < r.blen.toNat := by omega
  exact bitsOf_getElem? (by simp [hbyte])

/-! ### Fields written (20_memory.md R33, 49_laws.md R97) -/

theorem Writer.wbits_length (w : Writer) : w.wbits.length = 8 * w.len + w.nheld.toNat := by
  have h8 : w.nheld.toNat < 8 := w.nheld.isLt
  simp only [Writer.wbits, Writer.len, List.length_append, bitsOf_length, List.length_take, be_length]
  omega

/-- A command after which the engine runs has completed: a fault entry and the halted reply leave it halted. -/
theorem exec_completed_of_running {i : Instr} {s t : State} (h : exec i s = .next t) (ht : t.fault.valid = false) :
    ∃ p, Completed i s p ∧ t = State.finish p := by
  rcases exec_next h with ⟨hv, rfl⟩ | ⟨_, hp⟩ | ⟨_, c, rfl⟩
  · exact absurd (hv.symm.trans ht) (by decide)
  · exact hp
  · cases ht

/-- The writer a completed `WRITE` leaves is the one its pseudocode comes to. -/
theorem Completed.write_put {s : State} {p : State × Word} {u n : Nat} {v : Word} {w w' : Writer}
    (h : Completed (.write u n v) s p) (hw : s.writers[u]? = some w) (hw' : p.1.writers[u]? = some w') :
    w.put s.wcap n v.toNat = .done w' := by
  cases h with
  | write hw₀ hput =>
    obtain rfl := Option.some.inj (hw₀.symm.trans hw)
    have hlt : u < s.writers.length := (List.getElem?_eq_some_iff.mp hw).1
    obtain rfl : _ = w' := by simpa [hlt] using hw'
    exact hput

/-- A field written at the end of a writer's bit string has its bit `n - 1 - k` at `k` bits from there. -/
theorem Writer.put_wbits_getElem? {w w' : Writer} {wcap n v k : Nat} (hi : w.Inv wcap)
    (h : w.put wcap n v = .done w') (hk : k < n) :
    w'.wbits[8 * w.len + w.nheld.toNat + k]? = some (v.testBit (n - 1 - k)) := by
  obtain ⟨hheld, _⟩ := hi
  rw [Writer.put_wbits hheld h, ← w.wbits_length, List.getElem?_append_right (Nat.le_add_right _ _),
    Nat.add_sub_cancel_left, be_getElem? hk]

/-! ### Fields read (20_memory.md R33, 49_laws.md R101) -/

/-- A command answered `(OK, d)` on a running engine has completed with the result `d`. -/
theorem exec_completed_of_ok {i : Instr} {s t : State} {d : Word} (hv : s.fault.valid = false)
    (h : exec i s = .next t) (htr : t.trace = s.trace ++ [{ st := .ok, data := d }]) :
    ∃ p, Completed i s p ∧ t = State.finish p ∧ p.2 = d := by
  rcases exec_next h with ⟨hv', _⟩ | ⟨_, p, hp, rfl⟩ | ⟨_, c, rfl⟩
  · exact absurd (hv'.symm.trans hv) (by decide)
  · obtain ⟨_, _, _, _, hkeep, _⟩ := hp.keeps
    refine ⟨p, hp, rfl, ?_⟩
    simpa [State.finish, hkeep, Response.completed] using htr
  · simp [Response.faulted] at htr

/-- The result of a completed `READ` is the one its pseudocode comes to. -/
theorem Completed.read_take {s : State} {p : State × Word} {u n : Nat} {r : Reader}
    (h : Completed (.read u n) s p) (hr : s.readers[u]? = some r) : ∃ r', r.take s.xmem n = .done (r', p.2) := by
  cases h with
  | read hr₀ ht =>
    obtain rfl := Option.some.inj (hr₀.symm.trans hr)
    exact ⟨_, ht⟩

/-- A read that completes asks no more bits than are left (42_reader.md R82). -/
theorem Reader.take_le_left {r : Reader} {x : Memory} {n : Nat} {p : Reader × Word} (hi : r.Inv)
    (h : r.take x n = .done p) : n ≤ r.left := by
  obtain ⟨_, hc, _⟩ := hi
  obtain ⟨_, hh | ⟨hh, hl⟩⟩ := Reader.take_done h
  · simp only [Reader.left]
    omega
  · exact (r.fits_iff n hc hh).mp hl

/-- A field of at most `m` bits survives truncation to `m` bits. -/
theorem be_mod_of_le {n m : Nat} (h : n ≤ m) (v : Nat) : be n (v % 2 ^ m) = be n v :=
  be_congr fun b hb => by simp [Nat.testBit_mod_two_pow, Nat.lt_of_lt_of_le hb h]

/-- A high field above a low one, as bits. -/
theorem be_mul_add {a b hi lo : Nat} (h : lo < 2 ^ b) : be (a + b) (hi * 2 ^ b + lo) = be a hi ++ be b lo := by
  rw [be_add, Nat.shiftRight_eq_div_pow, Nat.mul_comm, Nat.mul_add_div (Nat.two_pow_pos b), Nat.div_eq_of_lt h,
    Nat.add_zero, ← be_mod b, Nat.mul_add_mod, be_mod]

/-- The high `rem` bits of the bytes loaded for `rem` further bits are a number of `rem` bits. -/
theorem Reader.wordAt_high_lt (r : Reader) (x : Memory) (c rem : Nat) :
    r.wordAt x c ((rem + 7) / 8) / 2 ^ (8 * ((rem + 7) / 8) - rem) < 2 ^ rem := by
  rw [Nat.div_lt_iff_lt_mul (Nat.two_pow_pos _), ← Nat.pow_add]
  exact Nat.lt_of_lt_of_le (r.wordAt_lt x _ _) (Nat.pow_le_pow_right (by omega) (by omega))

/-- The bits loaded for `rem` further bits: the high bits of the big-endian number of the bytes from the cursor on. -/
theorem Reader.stream_loaded {r : Reader} {x : Memory} {rem : Nat}
    (h : r.cursor.toNat + (rem + 7) / 8 ≤ r.blen.toNat) :
    ((r.stream x).drop (8 * r.cursor.toNat)).take rem =
      be rem (r.wordAt x r.cursor.toNat ((rem + 7) / 8) / 2 ^ (8 * ((rem + 7) / 8) - rem)) := by
  have hle : rem ≤ 8 * ((rem + 7) / 8) := by omega
  rw [← Nat.shiftRight_eq_div_pow, ← be_take hle, ← Reader.stream_bytes h, List.take_take, Nat.min_eq_left hle]

/-- A read that completes delivers the next `n` bits of the stream (49_laws.md R101). -/
theorem Reader.take_nextBits {r : Reader} {x : Memory} {n : Nat} {p : Reader × Word} (hi : r.Inv) (hf : r.Fresh x)
    (h : r.take x n = .done p) : r.nextBits x n = be n p.2.toNat := by
  have ⟨hb, _, _⟩ := hi
  rw [Reader.nextBits, Reader.stream_drop_pos hi hf]
  obtain ⟨hn, hh | ⟨hh, hc⟩⟩ := Reader.take_done h
  · rw [Reader.take_held hh] at h
    cases h
    rw [List.take_append_of_le_length (by simpa using hh), be_take hh, BitVec.toNat_ofNat, be_mod_of_le hn, be_mod,
      Nat.shiftRight_eq_div_pow]
  · rw [Reader.take_load hn hh hb hc] at h
    cases h
    have hsum := be_mul_add (a := r.nheld.toNat) (hi := r.held.toNat % 2 ^ r.nheld.toNat)
      (r.wordAt_high_lt x r.cursor.toNat (n - r.nheld.toNat))
    rw [Nat.add_sub_cancel' (Nat.le_of_lt hh), be_mod, ← Reader.stream_loaded hc] at hsum
    rw [BitVec.toNat_ofNat, be_mod_of_le hn, hsum, List.take_append, be_length,
      List.take_of_length_le (by simpa using Nat.le_of_lt hh)]

/-- Bit `n - 1 - k` of what a read delivers is stream bit `pos + k`, found in its byte of the bound buffer. -/
theorem Reader.take_getLsbD {r : Reader} {x : Memory} {n k : Nat} {p : Reader × Word} (hi : r.Inv) (hf : r.Fresh x)
    (h : r.take x n = .done p) (hk : k < n) :
    p.2.getLsbD (n - 1 - k) = (r.byteAt x ((r.pos + k) / 8)).getLsbD (7 - (r.pos + k) % 8) := by
  have hin : r.pos + k < 8 * r.blen.toNat := by
    have := Reader.take_le_left hi h
    have := r.left_eq hi
    omega
  have hbit : (be n p.2.toNat)[k]? = (r.stream x)[r.pos + k]? := by
    rw [← Reader.take_nextBits hi hf h, Reader.nextBits, List.getElem?_take_of_lt hk, List.getElem?_drop]
  rw [be_getElem? hk, Reader.stream_getElem? hin] at hbit
  exact Option.some.inj hbit

/-- Settles O40: the order of bits in a byte, carried through what a write appends and what a read delivers. -/
theorem streamBitOrder : Obligations.StreamBitOrder := by
  refine ⟨fun _ _ _ => bitsOf_getElem?, ?_, ?_⟩
  · intro s t u n v w w' _ hw hi h ht hw' k hk
    obtain ⟨p, hp, rfl⟩ := exec_completed_of_running h ht
    exact Writer.put_wbits_getElem? hi (hp.write_put hw hw') hk
  · intro s t u n r x hv hr hi hf h htr
    obtain ⟨p, hp, _, rfl⟩ := exec_completed_of_ok hv h htr
    obtain ⟨r', ht⟩ := hp.read_take hr
    have ⟨hb, _, _⟩ := hi
    exact ⟨Reader.take_lt hb ht, fun k hk => Reader.take_getLsbD hi hf ht hk⟩

end Sys2Proof.Machine
end

section
/-! PROOFS. The statements of the family 30_encoding.md: the opcode map decides what a word is (R49, R51), the decoder and
the encoder undo each other (R50), and every command is answered by one response (R52). -/

namespace Sys2Proof

/-! ### What a command word carries (30_encoding.md R46, R49, column "Uses") -/

/-- The command uses the field `n`. -/
def Instr.usesN : Instr → Bool
  | .write .. | .read .. | .pread .. => true
  | _ => false

/-- The command uses the field `s`. -/
def Instr.usesS : Instr → Bool
  | .winsert .. => true
  | _ => false

/-- The command uses the field `a`. -/
def Instr.usesA : Instr → Bool
  | .write .. | .wbyte .. | .winsert .. | .rbind .. => true
  | _ => false

/-- The command uses the field `b`. -/
def Instr.usesB : Instr → Bool
  | .rbind .. => true
  | _ => false

/-- Every field of `c` that the command does not use is zero (30_encoding.md R50). -/
def Instr.UnusedZero (i : Instr) (c : CmdWord) : Prop :=
  (i.usesN = false → fieldN c = 0#8) ∧ (i.usesS = false → fieldS c = 0#8) ∧
  (i.usesA = false → fieldA c = 0#32) ∧ (i.usesB = false → fieldB c = 0#32)

/-- The command of the same row with the operands that stand in the fields of `c` (30_encoding.md R46, R47). -/
def Instr.withFieldsOf (c : CmdWord) : Instr → Instr
  | .write _ _ _ => .write (fieldU c).toNat (fieldN c).toNat (fieldA c)
  | .walign0 _ => .walign0 (fieldU c).toNat
  | .walign1 _ => .walign1 (fieldU c).toNat
  | .wlen _ => .wlen (fieldU c).toNat
  | .wbyte _ _ => .wbyte (fieldU c).toNat (fieldA c)
  | .wclear _ => .wclear (fieldU c).toNat
  | .winsert _ _ _ => .winsert (fieldU c).toNat (fieldS c).toNat (fieldA c)
  | .rbind _ _ _ => .rbind (fieldU c).toNat (fieldA c) (fieldB c)
  | .read _ _ => .read (fieldU c).toNat (fieldN c).toNat
  | .pread _ _ => .pread (fieldU c).toNat (fieldN c).toNat

@[simp] theorem Instr.opcode_withFieldsOf (i : Instr) (c : CmdWord) : opcode (i.withFieldsOf c) = opcode i := by
  cases i <;> rfl

@[simp] theorem Instr.withFieldsOf_withFieldsOf (i : Instr) (c : CmdWord) :
    (i.withFieldsOf c).withFieldsOf c = i.withFieldsOf c := by
  cases i <;> rfl

@[simp] theorem Instr.unusedZero_withFieldsOf (i : Instr) (c d : CmdWord) :
    (i.withFieldsOf c).UnusedZero d ↔ i.UnusedZero d := by
  cases i <;> rfl

/-- The operands taken from fields fit their fields (30_encoding.md R47). -/
theorem Instr.withFieldsOf_wellFormed (i : Instr) (c : CmdWord) : (i.withFieldsOf c).WellFormed := by
  have hu := (fieldU c).isLt
  have hn := (fieldN c).isLt
  have hs := (fieldS c).isLt
  cases i <;> simp [Instr.withFieldsOf, Instr.WellFormed, Instr.wellFormed, FitsField, hu, hn, hs]

/-! ### The decoder, inverted once (30_encoding.md R56) -/

/-- One arm of the decoder: a command it answers has the opcode of the word, if that holds of the arms after it. -/
theorem opcode_of_arm {op code : BitVec 8} {p : Prop} [Decidable p] {j : Instr} {rest : Option Instr}
    (hj : opcode j = code) (hrest : ∀ i, rest = some i → op = opcode i) (i : Instr)
    (h : (if op = code then if p then some j else none else rest) = some i) : op = opcode i := by
  split at h
  · next hop =>
    obtain ⟨_, hij⟩ := Option.ite_none_right_eq_some.mp h
    rw [hop, ← hj, Option.some.inj hij]
  · exact hrest i h

theorem fieldOp_of_decode {c : CmdWord} : ∀ i : Instr, decode c = some i → fieldOp c = opcode i := by
  simp only [decode]
  iterate 10 refine opcode_of_arm rfl ?_
  exact nofun

/-- The decoder answers `i` exactly when the opcode is that of `i`, the fields `i` does not use are zero, and the
others are its operands. -/
theorem decode_eq_some_iff {c : CmdWord} {i : Instr} :
    decode c = some i ↔ fieldOp c = opcode i ∧ i.UnusedZero c ∧ i.withFieldsOf c = i := by
  by_cases hop : fieldOp c = opcode i
  · cases i <;>
      simp [decode, hop, opcode, Instr.UnusedZero, Instr.withFieldsOf, Instr.usesN, Instr.usesS, Instr.usesA,
        Instr.usesB]
  · exact ⟨fun h => absurd (fieldOp_of_decode i h) hop, fun ⟨h, _⟩ => absurd h hop⟩

theorem eq_pack_iff {c : CmdWord} {op u n s : BitVec 8} {a b : Word} :
    c = pack op u n s a b ↔
      fieldOp c = op ∧ fieldU c = u ∧ fieldN c = n ∧ fieldS c = s ∧ fieldA c = a ∧ fieldB c = b := by
  constructor
  · rintro rfl
    exact pack_get ..
  · rintro ⟨rfl, rfl, rfl, rfl, rfl, rfl⟩
    exact (pack_fields c).symm

/-- A word of the opcode and with zero in the unused fields is the encoding of its operands (30_encoding.md R50). -/
theorem encode_withFieldsOf {c : CmdWord} {i : Instr} (hop : fieldOp c = opcode i) (hz : i.UnusedZero c) :
    encode (i.withFieldsOf c) = c := by
  symm
  cases i <;>
    simpa [encode, Instr.withFieldsOf, eq_pack_iff, hop, opcode, Instr.UnusedZero, Instr.usesN, Instr.usesS,
      Instr.usesA, Instr.usesB] using hz

theorem wellFormed_of_decode {c : CmdWord} {i : Instr} (h : decode c = some i) : i.WellFormed := by
  obtain ⟨_, _, hi⟩ := decode_eq_some_iff.mp h
  exact hi ▸ i.withFieldsOf_wellFormed c

theorem encode_of_decode {c : CmdWord} {i : Instr} (h : decode c = some i) : encode i = c := by
  obtain ⟨hop, hz, hi⟩ := decode_eq_some_iff.mp h
  exact hi ▸ encode_withFieldsOf hop hz

/-- Settles O3: a decoded command is made of the fields of its word, so encoding it gives the word again. -/
theorem encodeOfDecode : Obligations.EncodeOfDecode :=
  ⟨fun _ _ h => ⟨wellFormed_of_decode h, encode_of_decode h⟩,
    fun _ _ _ hc hd => (encode_of_decode hc).symm.trans (encode_of_decode hd)⟩

/-! ### Decoding an encoding (30_encoding.md R46, R50) -/

theorem fieldOp_encode (i : Instr) : fieldOp (encode i) = opcode i := by
  cases i <;> exact fieldOp_pack ..

/-- The encoder leaves the fields a command does not use at zero (30_encoding.md R50). -/
theorem Instr.unusedZero_encode (i : Instr) : i.UnusedZero (encode i) := by
  cases i <;> simp [Instr.UnusedZero, Instr.usesN, Instr.usesS, Instr.usesA, Instr.usesB, encode]

/-- The encoder loses no operand of a well-formed command (30_encoding.md R47). -/
theorem Instr.withFieldsOf_encode {i : Instr} (h : i.WellFormed) : i.withFieldsOf (encode i) = i := by
  cases i with
  | write u n v | read u n | pread u n | winsert u n p =>
    obtain ⟨hu, hn⟩ : u < 256 ∧ n < 256 := by simpa [Instr.WellFormed, Instr.wellFormed] using h
    simp [Instr.withFieldsOf, encode, toNat_field8 hu, toNat_field8 hn]
  | walign0 u | walign1 u | wlen u | wbyte u k | wclear u | rbind u base length =>
    have hu : u < 256 := by simpa [Instr.WellFormed, Instr.wellFormed] using h
    simp [Instr.withFieldsOf, encode, toNat_field8 hu]

/-- Settles O2: the encoding has the opcode of the command, zero in the unused fields, and its operands. -/
theorem decodeOfEncode : Obligations.DecodeOfEncode := fun i h =>
  decode_eq_some_iff.mpr ⟨fieldOp_encode i, i.unusedZero_encode, Instr.withFieldsOf_encode h⟩

/-! ### The opcode map (30_encoding.md R49, R50) -/

/-- The mask of a field of `w` bits: zero when the command uses the field, all ones when the field must be zero. -/
def operandMask (w : Nat) (used : Bool) : BitVec w := if used then 0#w else BitVec.allOnes w

theorem and_operandMask (w : Nat) (used : Bool) (x : BitVec w) :
    x &&& operandMask w used = 0#w ↔ (used = false → x = 0#w) := by
  cases used <;> simp [operandMask]

/-- The row of a command: it compares the opcode with that of the command and the unused fields with zero. -/
def Instr.row (i : Instr) : OpcodeRow where
  mnemonic := i.mnemonic
  pattern := pack (opcode i) 0#8 0#8 0#8 0#32 0#32
  mask := pack (BitVec.allOnes 8) 0#8 (operandMask 8 i.usesN) (operandMask 8 i.usesS) (operandMask 32 i.usesA)
    (operandMask 32 i.usesB)

/-- One command of each row of the opcode map, in the order of 30_encoding.md R49. -/
def oneOfEachRow : List Instr :=
  [.write 0 0 0#32, .walign0 0, .walign1 0, .wlen 0, .wbyte 0 0#32, .wclear 0, .winsert 0 0 0#32, .rbind 0 0#32 0#32,
    .read 0 0, .pread 0 0]

/-- The match and mask table of 30_encoding.md R49 is the table of the commands' opcodes and used fields. -/
theorem opcodeRows_eq : opcodeRows = oneOfEachRow.map Instr.row := by decide

theorem Instr.row_withFieldsOf (i : Instr) (c : CmdWord) : (i.withFieldsOf c).row = i.row := by
  cases i <;> rfl

theorem forall_opcodeRows {P : OpcodeRow → Prop} : (∀ r ∈ opcodeRows, P r) ↔ ∀ i : Instr, P i.row := by
  rw [opcodeRows_eq, List.forall_mem_map]
  refine ⟨fun h i => ?_, fun h i _ => h i⟩
  rw [← i.row_withFieldsOf 0#96]
  exact h _ (by cases i <;> simp [oneOfEachRow, Instr.withFieldsOf, fieldU, fieldN, fieldS, fieldA, fieldB])

/-- A word matches a row exactly when it has the row's opcode and zero in the fields the row does not use. -/
theorem Instr.row_matches_iff {i : Instr} {c : CmdWord} :
    i.row.Matches c ↔ fieldOp c = opcode i ∧ i.UnusedZero c := by
  obtain ⟨hop, hu, hn, hs, ha, hb⟩ := fields_and c i.row.mask
  rw [OpcodeRow.Matches, Instr.row, eq_pack_iff, ← Instr.row, hop, hu, hn, hs, ha, hb]
  simp [Instr.row, Instr.UnusedZero, and_operandMask, -BitVec.reduceAllOnes]

/-- A word matches the row of a command exactly when it decodes to the command of that row with the operands that stand
in its fields. -/
theorem Instr.row_matches_iff_decode {i : Instr} {c : CmdWord} :
    i.row.Matches c ↔ decode c = some (i.withFieldsOf c) := by
  simp [Instr.row_matches_iff, decode_eq_some_iff]

/-- The opcodes of two rows differ, so no word matches both. -/
theorem opcodeRows_disjoint {c : CmdWord} {r r' : OpcodeRow} (hr : r ∈ opcodeRows) (hr' : r' ∈ opcodeRows)
    (h : r.Matches c) (h' : r'.Matches c) : r = r' := by
  rw [opcodeRows_eq] at hr hr'
  obtain ⟨i, hi, rfl⟩ := List.mem_map.mp hr
  obtain ⟨j, hj, rfl⟩ := List.mem_map.mp hr'
  obtain ⟨hopi, _⟩ := Instr.row_matches_iff.mp h
  obtain ⟨hopj, _⟩ := Instr.row_matches_iff.mp h'
  have hinj : ∀ i ∈ oneOfEachRow, ∀ j ∈ oneOfEachRow, opcode i = opcode j → i = j := by decide
  rw [hinj i hi j hj (hopi.symm.trans hopj)]

/-- Settles O4: each row of the table is the row of a command. -/
theorem opcodeMapDecides : Obligations.OpcodeMapDecides := by
  refine ⟨?_, ?_, ?_, ?_, ?_, ?_, ?_, ?_, ?_, ?_, fun c r hr r' hr' => opcodeRows_disjoint hr hr'⟩
  · exact fun _ => Instr.row_matches_iff_decode (i := .write 0 0 0#32)
  · exact fun _ => Instr.row_matches_iff_decode (i := .walign0 0)
  · exact fun _ => Instr.row_matches_iff_decode (i := .walign1 0)
  · exact fun _ => Instr.row_matches_iff_decode (i := .wlen 0)
  · exact fun _ => Instr.row_matches_iff_decode (i := .wbyte 0 0#32)
  · exact fun _ => Instr.row_matches_iff_decode (i := .wclear 0)
  · exact fun _ => Instr.row_matches_iff_decode (i := .winsert 0 0 0#32)
  · exact fun _ => Instr.row_matches_iff_decode (i := .rbind 0 0#32 0#32)
  · exact fun _ => Instr.row_matches_iff_decode (i := .read 0 0)
  · exact fun _ => Instr.row_matches_iff_decode (i := .pread 0 0)

/-- Settles O1: the decoder evaluated on the words of 95_test_vectors.md. -/
theorem writtenOutWordsDecode : Obligations.WrittenOutWordsDecode := by
  unfold Obligations.WrittenOutWordsDecode
  decide

/-! ### Illegal words (30_encoding.md R51, 60_exceptions.md R115) -/

theorem decode_eq_none_iff {c : CmdWord} : decode c = none ↔ ∀ r ∈ opcodeRows, ¬ r.Matches c := by
  rw [forall_opcodeRows]
  constructor
  · intro h i hm
    rw [Instr.row_matches_iff_decode.mp hm] at h
    cases h
  · refine fun h => Option.eq_none_iff_forall_ne_some.mpr fun i hi => h i ?_
    obtain ⟨hop, hz, _⟩ := decode_eq_some_iff.mp hi
    exact Instr.row_matches_iff.mpr ⟨hop, hz⟩

/-- The ten opcodes of 30_encoding.md R49. -/
def opcodes : List (BitVec 8) :=
  [0x01#8, 0x02#8, 0x03#8, 0x04#8, 0x05#8, 0x06#8, 0x07#8, 0x10#8, 0x11#8, 0x12#8]

theorem opcode_mem_opcodes (i : Instr) : opcode i ∈ opcodes := by
  cases i <;> simp [opcode, opcodes]

theorem decode_of_unlisted_opcode {c : CmdWord} (h : fieldOp c ∉ opcodes) : decode c = none :=
  Option.eq_none_iff_forall_ne_some.mpr fun i hi => h (fieldOp_of_decode i hi ▸ opcode_mem_opcodes i)

end Sys2Proof

namespace Sys2Proof.Machine

/-- Settles O5: no command has a word that matches no row; the opcode of the zero word is unlisted. -/
theorem illegalWordsFault : Obligations.IllegalWordsFault := by
  refine ⟨fun _ => decode_eq_none_iff, fun _ => decode_of_unlisted_opcode, decode_of_unlisted_opcode (by decide), ?_⟩
  intro s c hv hc
  exact (runWord_illegal hc s).trans (State.command_raise .illegal hv)

/-! ### Responses (30_encoding.md R52) -/

theorem Reader.peek_lt {r : Reader} {x : Memory} {n : Nat} {d : Word} (hb : r.base.toNat + r.blen.toNat ≤ 2 ^ 32)
    (h : r.peek x n = .done d) : d.toNat < 2 ^ n := by
  rcases Nat.lt_or_ge 32 n with hn | hn
  · rw [Reader.peek_width hn] at h
    cases h
  · rw [Reader.peek_eq hn] at h
    obtain ⟨p, ht, hd⟩ := Result.andThen_eq_done h
    cases hd
    have hlt := Reader.take_lt hb ht
    rw [BitVec.toNat_ofNat, Nat.shiftLeft_eq]
    calc p.2.toNat * 2 ^ (n - min n r.left) % 2 ^ 32 ≤ p.2.toNat * 2 ^ (n - min n r.left) := Nat.mod_le _ _
      _ < 2 ^ min n r.left * 2 ^ (n - min n r.left) := Nat.mul_lt_mul_of_pos_right hlt (Nat.two_pow_pos _)
      _ = 2 ^ n := by rw [← Nat.pow_add, Nat.add_sub_cancel' (Nat.min_le_left ..)]

/-- The result of a completed command is the one R52 gives it. -/
theorem Completed.okData {i : Instr} {s : State} {p : State × Word} (h : Completed i s p) (hi : s.Inv) :
    OkData i s p.2 := by
  obtain ⟨⟨_, _, _, hcap⟩, hw, hr, _⟩ := hi
  cases h with
  | write | walign0 | walign1 | wclear | winsert | rbind => rfl
  | wlen hu =>
    obtain ⟨_, hlen⟩ := hw _ (List.mem_of_getElem? hu)
    refine ⟨_, hu, ?_⟩
    rw [BitVec.toNat_ofNat, Writer.len, Nat.mod_eq_of_lt (by simp only at hcap; omega)]
  | wbyte hu hb => exact ⟨_, _, hu, hb, BitVec.toNat_setWidth_of_le (by decide)⟩
  | read hu ht =>
    obtain ⟨hb, _⟩ := hr _ (List.mem_of_getElem? hu)
    exact Reader.take_lt hb ht
  | pread hu ht =>
    obtain ⟨hb, _⟩ := hr _ (List.mem_of_getElem? hu)
    exact Reader.peek_lt hb ht

theorem Response.bits_status (r : Response) : r.bits.getLsbD 32 = decide (r.st = .fault) := by
  refine (BitVec.getLsbD_append (m := 32)).trans ?_
  cases r.st <;> rfl

theorem Response.bits_data (r : Response) : r.bits.setWidth 32 = r.data :=
  BitVec.setWidth_append_eq_right

/-- Settles O23: the halted reply and a fault entry answer the recorded cause, a completion its result. -/
theorem oneResponsePerCommand : Obligations.OneResponsePerCommand := by
  refine ⟨fun i s t hi h => ?_, fun r => ⟨r.bits_status, r.bits_data⟩⟩
  rcases exec_next h with ⟨hv, rfl⟩ | ⟨hv, p, hp, rfl⟩ | ⟨_, c, rfl⟩
  · exact ⟨Response.faulted s.fault.cause, rfl, by simp [Response.faulted, hv], fun _ => rfl, nofun⟩
  · obtain ⟨hf, _, _, _, htr, _⟩ := hp.keeps
    exact ⟨Response.completed p.2, by rw [State.finish, State.respond_trace, htr],
      by simp [Response.completed, State.finish, hf, hv], nofun, fun _ => hp.okData hi⟩
  · exact ⟨Response.faulted c.code, rfl, by simp [Response.faulted], fun _ => rfl, nofun⟩

end Sys2Proof.Machine
end

section
/-! PROOFS. The statements of the family 40_writer.md: `WRITE` (R62) and its fields of no bits (R63), the align commands
(R64, R65), and the three commands that only show or clear the buffer (R66 to R68). -/

namespace Sys2Proof.Machine

/-! ### `WRITE` on one writer context (40_writer.md R61, R62) -/

/-- The justified word is the held byte above the bits of the value that leave: under the invariant the two parts do not
overlap, so `OR` is a sum. -/
theorem Writer.justifiedWord_eq_add {w : Writer} {wcap n v : Nat} (hi : w.Inv wcap) (hv : v < 2 ^ n)
    (ht : 8 ≤ n + w.nheld.toNat) :
    justifiedWord w.held.toNat ((n + w.nheld.toNat) / 8) v ((n + w.nheld.toNat) % 8) =
      w.held.toNat * 256 ^ ((n + w.nheld.toNat) / 8 - 1) + v / 2 ^ ((n + w.nheld.toNat) % 8) := by
  have h8 : w.nheld.toNat < 8 := w.nheld.isLt
  obtain ⟨hheld, _⟩ := hi
  obtain ⟨q, _, hq⟩ := held_eq_mul hheld
  have hexp : 8 * ((n + w.nheld.toNat) / 8) - w.nheld.toNat =
      8 - w.nheld.toNat + 8 * ((n + w.nheld.toNat) / 8 - 1) := by omega
  rw [justifiedWord_eq q hq h8 hv ht, hexp, Nat.pow_add, Nat.pow_mul, Nat.mul_right_comm, ← hq]

theorem Writer.put_buf_earlier {w w' : Writer} {wcap n v k : Nat} (h : w.put wcap n v = .done w') (hk : k < w.len) :
    w'.buf[k]? = w.buf[k]? := by
  obtain ⟨_, _, ⟨_, rfl⟩ | ⟨_, _, rfl⟩⟩ := Writer.put_done h
  · rfl
  · exact List.getElem?_append_left hk

theorem Writer.put_held_short {w w' : Writer} {wcap n v : Nat} (hi : w.Inv wcap) (h : w.put wcap n v = .done w')
    (ht : n + w.nheld.toNat < 8) : w'.held.toNat = w.held.toNat + v * 2 ^ (8 - w.nheld.toNat - n) := by
  obtain ⟨hheld, _⟩ := hi
  obtain ⟨_, hv, ⟨_, rfl⟩ | ⟨ht', _, _⟩⟩ := Writer.put_done h
  · rw [put_short_held hheld hv ht, Nat.mul_comm v, Nat.sub_sub, Nat.add_comm n]
  · omega

theorem Writer.put_held_bytes {w w' : Writer} {wcap n v : Nat} (h : w.put wcap n v = .done w')
    (ht : 8 ≤ n + w.nheld.toNat) :
    w'.held.toNat = v % 2 ^ ((n + w.nheld.toNat) % 8) * 2 ^ (8 - (n + w.nheld.toNat) % 8) % 256 := by
  obtain ⟨_, _, ⟨ht', _⟩ | ⟨_, _, rfl⟩⟩ := Writer.put_done h
  · omega
  · exact nextHeldByte_toNat _ _

/-- Byte `i` that a write appends: byte `k - 1 - i` of the justified word, so the most significant comes first. -/
theorem Writer.put_appended {w w' : Writer} {wcap n v i : Nat} (hi : w.Inv wcap) (h : w.put wcap n v = .done w')
    (ht : 8 ≤ n + w.nheld.toNat) (hlt : i < (n + w.nheld.toNat) / 8) :
    w'.buf[w.len + i]? = some (BitVec.ofNat 8
      ((w.held.toNat * 256 ^ ((n + w.nheld.toNat) / 8 - 1) + v / 2 ^ ((n + w.nheld.toNat) % 8))
        / 256 ^ ((n + w.nheld.toNat) / 8 - 1 - i))) := by
  obtain ⟨_, hv, ⟨ht', _⟩ | ⟨_, _, rfl⟩⟩ := Writer.put_done h
  · omega
  · rw [Writer.len, List.getElem?_append_right (Nat.le_add_right _ _), Nat.add_sub_cancel_left,
      bytesOfWord_getElem? hlt, w.justifiedWord_eq_add hi hv ht, Nat.shiftRight_eq_div_pow, Nat.pow_mul]

/-- A write whose checks all pass completes (40_writer.md R62). -/
theorem Writer.put_completes {w : Writer} {wcap n v : Nat} (hn : n ≤ 32) (hv : v < 2 ^ n)
    (hc : w.len + (n + w.nheld.toNat) / 8 ≤ wcap) : ∃ w', w.put wcap n v = .done w' := by
  rcases Nat.lt_or_ge (n + w.nheld.toNat) 8 with ht | ht
  · exact ⟨_, Writer.put_short hn hv ht⟩
  · exact ⟨_, Writer.put_bytes hn hv ht hc⟩

/-- Settles O27: each check of `Writer.put` in its order, then the counts, the bytes and the held bits it leaves. -/
theorem writeResult : Obligations.WriteResult := by
  intro s u n v w hv hw hi
  refine ⟨fun hn => ?_, fun hn hval => ?_, fun hn hval ht hc => ?_, fun hn hval hc => ?_⟩
  · exact (raises_write hv hw).mpr (Writer.put_width hn)
  · exact (raises_write hv hw).mpr (Writer.put_value hn hval)
  · exact (raises_write hv hw).mpr (Writer.put_overflow hn hval ht hc)
  · obtain ⟨w', hput⟩ := Writer.put_completes hn hval hc
    obtain ⟨hlen, hnheld⟩ := Writer.put_counts hput
    exact ⟨w', exec_write_done hv hw hput, hnheld, hlen, fun _ => Writer.put_buf_earlier hput,
      Writer.put_held_short hi hput,
      fun ht => ⟨Writer.put_held_bytes hput ht, fun _ => Writer.put_appended hi hput ht⟩⟩

/-! ### The align commands as a `WRITE` of the pad bits (40_writer.md R64, R65) -/

/-- A `WRITE` that leaves its writer as it is changes no context. -/
theorem exec_write_unchanged {s : State} {u n : Nat} {v : Word} {w : Writer} (hv : s.fault.valid = false)
    (hw : s.writers[u]? = some w) (h : w.put s.wcap n v.toNat = .done w) :
    exec (.write u n v) s = .next (s.respond (Response.completed 0#32)) := by
  rw [exec_write_done hv hw h, State.setWriter_self s u w hw]

section Pad

variable {s : State} {u : Nat} {w : Writer} {v : Word}

theorem exec_write_pad_aligned (hv : s.fault.valid = false) (hw : s.writers[u]? = some w)
    (hlt : v.toNat < 2 ^ w.padBits) (ha : w.nheld = 0#3) :
    exec (.write u w.padBits v) s = .next (s.respond (Response.completed 0#32)) := by
  rcases w.put_pad s.wcap v.toNat hlt with ⟨_, hput⟩ | ⟨hne, _⟩ | ⟨hne, _⟩
  · exact exec_write_unchanged hv hw hput
  · exact absurd ha hne
  · exact absurd ha hne

theorem raises_write_pad (hv : s.fault.valid = false) (hw : s.writers[u]? = some w)
    (hlt : v.toNat < 2 ^ w.padBits) (hne : w.nheld ≠ 0#3) (hc : s.wcap < w.len + 1) :
    Raises (.write u w.padBits v) s .overflow := by
  rcases w.put_pad s.wcap v.toNat hlt with ⟨ha, _⟩ | ⟨_, _, hput⟩ | ⟨_, hc', _⟩
  · exact absurd ha hne
  · exact (raises_write hv hw).mpr hput
  · omega

/-- With bits held and a byte free, the pad bits stand below the held ones in the one byte appended. -/
theorem exec_write_pad_held (hv : s.fault.valid = false) (hw : s.writers[u]? = some w)
    (hlt : v.toNat < 2 ^ w.padBits) (hne : w.nheld ≠ 0#3) (hc : w.len + 1 ≤ s.wcap) :
    exec (.write u w.padBits v) s =
      .next ((s.setWriter u { buf := w.buf ++ [w.held ||| BitVec.ofNat 8 v.toNat], held := 0#8, nheld := 0#3 }).respond
        (Response.completed 0#32)) := by
  rcases w.put_pad s.wcap v.toNat hlt with ⟨ha, _⟩ | ⟨_, hc', _⟩ | ⟨_, _, hput⟩
  · exact absurd ha hne
  · omega
  · exact exec_write_done hv hw hput

end Pad

theorem exec_walign0_eq_write {s : State} {u : Nat} {w : Writer} (hw : s.writers[u]? = some w) :
    exec (.walign0 u) s = exec (.write u w.padBits 0#32) s := by
  show s.command (s.withWriter u _) = s.command (s.withWriter u _)
  rw [State.withWriter_some hw, State.withWriter_some hw, Writer.alignZero_eq_put]
  rfl

/-- The pad bits are fewer than 8, so the mask of ones loses nothing in the operand word. -/
theorem Writer.toNat_padOnes (w : Writer) : (BitVec.ofNat 32 (mask w.padBits)).toNat = mask w.padBits := by
  have hpad : w.padBits < 8 := Nat.mod_lt _ (by omega)
  have hmask : mask w.padBits < 2 ^ 32 :=
    Nat.lt_trans (mask_lt _) (Nat.pow_lt_pow_right (by omega) (by omega))
  rw [BitVec.toNat_ofNat, Nat.mod_eq_of_lt hmask]

theorem exec_walign1_eq_write {s : State} {u : Nat} {w : Writer} (hw : s.writers[u]? = some w) :
    exec (.walign1 u) s = exec (.write u w.padBits (BitVec.ofNat 32 (mask w.padBits))) s := by
  show s.command (s.withWriter u _) = s.command (s.withWriter u _)
  rw [State.withWriter_some hw, State.withWriter_some hw, Writer.toNat_padOnes]
  rfl

/-- The mask of the bits below `h` held ones is a byte of ones shifted right by `h`. -/
theorem mask_free_bits : ∀ h : BitVec 3, BitVec.ofNat 8 (mask (8 - h.toNat)) = (0xFF#8) >>> h.toNat := by decide

theorem Writer.padOnes_byte {w : Writer} (h : w.nheld ≠ 0#3) :
    BitVec.ofNat 8 (mask w.padBits) = (0xFF#8) >>> w.nheld.toNat := by
  rcases w.padBits_eq with ⟨ha, _⟩ | ⟨_, hp, _⟩
  · exact absurd ha h
  · rw [hp, mask_free_bits]

/-- Settles O28: the three outcomes of a `WRITE` of the pad count of zero bits, which leave the held byte as it is. -/
theorem alignZeroResult : Obligations.AlignZeroResult := by
  intro s u w hv hw
  have heq := exec_walign0_eq_write hw
  have hlt : (0#32).toNat < 2 ^ w.padBits := Nat.two_pow_pos _
  refine ⟨fun ha => ?_, fun hne hc => ?_, fun hne hc => ?_, heq⟩
  · exact heq.trans (exec_write_pad_aligned hv hw hlt ha)
  · exact heq.trans (raises_write_pad hv hw hlt hne hc)
  · have hpad := exec_write_pad_held hv hw hlt hne hc
    rw [show w.held ||| BitVec.ofNat 8 (0#32).toNat = w.held from BitVec.or_zero] at hpad
    exact heq.trans hpad

/-- Settles O29: the three outcomes of a `WRITE` of the pad count of one bits, which fill the held byte with ones. -/
theorem alignOneResult : Obligations.AlignOneResult := by
  intro s u w hv hw
  have heq := exec_walign1_eq_write hw
  have hlt : (BitVec.ofNat 32 (mask w.padBits)).toNat < 2 ^ w.padBits := by
    rw [w.toNat_padOnes]
    exact mask_lt _
  refine ⟨fun ha => ?_, fun hne hc => ?_, fun hne hc => ?_, heq⟩
  · exact heq.trans (exec_write_pad_aligned hv hw hlt ha)
  · exact heq.trans (raises_write_pad hv hw hlt hne hc)
  · have hpad := exec_write_pad_held hv hw hlt hne hc
    rw [w.toNat_padOnes, Writer.padOnes_byte hne] at hpad
    exact heq.trans hpad

/-! ### `WLEN`, `WBYTE`, `WCLEAR` (40_writer.md R66 to R68) -/

section Buffer

variable {s : State} {u : Nat} {w : Writer}

theorem exec_wlen (hv : s.fault.valid = false) (hw : s.writers[u]? = some w) :
    exec (.wlen u) s = .next (s.respond (Response.completed (BitVec.ofNat 32 w.len))) := by
  show s.command (s.withWriter u _) = _
  rw [State.withWriter_some hw, State.command_done _ hv]
  rfl

theorem exec_wbyte_some {k : Word} {b : Byte} (hv : s.fault.valid = false) (hw : s.writers[u]? = some w)
    (hb : w.buf[k.toNat]? = some b) :
    exec (.wbyte u k) s = .next (s.respond (Response.completed (b.setWidth 32))) := by
  show s.command (s.withWriter u _) = _
  rw [State.withWriter_some hw, hb, State.command_done _ hv]
  rfl

theorem exec_wbyte_none {k : Word} (hv : s.fault.valid = false) (hw : s.writers[u]? = some w)
    (hb : w.buf[k.toNat]? = none) : exec (.wbyte u k) s = .next (s.takeFault .index) := by
  show s.command (s.withWriter u _) = _
  rw [State.withWriter_some hw, hb, State.command_raise _ hv]

theorem exec_wclear (hv : s.fault.valid = false) (hw : s.writers[u]? = some w) :
    exec (.wclear u) s = .next ((s.setWriter u Writer.empty).respond (Response.completed 0#32)) := by
  show s.command (s.withWriter u _) = _
  rw [State.withWriter_some hw, State.command_done _ hv]
  rfl

end Buffer

/-- Settles O30: the invariant bounds the length by `WCAP`, so the 32 bits of the response hold it. -/
theorem lengthResult : Obligations.LengthResult := by
  intro s u w hv hw hi
  obtain ⟨w', hw', hlen⟩ := (Completed.wlen hw).okData hi
  obtain rfl : w' = w := Option.some.inj (hw'.symm.trans hw)
  exact ⟨_, hlen, exec_wlen hv hw⟩

/-- Settles O31: the two sides of the index check. -/
theorem byteResult : Obligations.ByteResult := fun _ _ _ _ hv hw =>
  ⟨fun _ => exec_wbyte_some hv hw, fun h => exec_wbyte_none hv hw (List.getElem?_eq_none h)⟩

/-- Settles O32, from the one completion of `WCLEAR`. -/
theorem clearResult : Obligations.ClearResult := fun _ _ hv hu =>
  exec_wclear hv (List.getElem?_eq_getElem hu)

/-! ### Fields of no bits (40_writer.md R63, 42_reader.md R84, 43_lookahead.md R91) -/

theorem nextHeldByte_value_zero (nh : Nat) : nextHeldByte 0 nh = 0#8 := by simp [nextHeldByte]

/-- A write of no bits needs no room and no invariant (40_writer.md R63). -/
theorem Writer.put_no_bits (w : Writer) (wcap : Nat) : w.put wcap 0 0 = .done w := by
  rw [Writer.put_short (by omega) (by decide) (by rw [Nat.zero_add]; exact w.nheld.isLt), Nat.zero_add,
    nextHeldByte_value_zero, BitVec.or_zero, BitVec.ofNat_toNat, BitVec.setWidth_eq]

/-- A read of no bits loads no byte, whatever the binding (42_reader.md R84). -/
theorem Reader.take_no_bits (r : Reader) (x : Memory) : r.take x 0 = .done (r, 0#32) := by
  rw [Reader.take_held (Nat.zero_le _), Nat.sub_zero, Nat.pow_zero, Nat.mod_one, BitVec.ofNat_toNat,
    BitVec.setWidth_eq]

theorem Reader.peek_no_bits (r : Reader) (x : Memory) : r.peek x 0 = .done 0#32 := by
  rw [Reader.peek_eq (by omega), Nat.zero_min, Reader.take_no_bits]
  rfl

/-- Settles O38: each context is written back as it was, so the response is the only change. -/
theorem zeroWidthIsNoOp : Obligations.ZeroWidthIsNoOp := by
  intro s u hv
  refine ⟨fun hu => ?_, fun hu => ⟨?_, ?_⟩⟩
  · have hw := List.getElem?_eq_getElem hu
    exact exec_write_unchanged hv hw (Writer.put_no_bits _ _)
  · have hr := List.getElem?_eq_getElem hu
    have hread := exec_read_done hv hr (Reader.take_no_bits _ _)
    rw [State.setReader_self s u _ hr] at hread
    exact hread
  · exact exec_pread_done hv (List.getElem?_eq_getElem hu) (Reader.peek_no_bits _ _)

end Sys2Proof.Machine
end

section
/-! PROOFS. The statement of the family 41_splice.md: what `WINSERT` leaves when its checks pass (R76 to R78). -/

namespace Sys2Proof.Machine

/-! ### The bytes of a splice (41_splice.md R76) -/

section Bytes

variable {d e : List Byte} {p k : Nat}

theorem splice_getElem?_before (hp : p ≤ d.length) (hk : k < p) : (splice d e p)[k]? = d[k]? := by
  have hlen : (d.take p).length = p := List.length_take_of_le hp
  rw [splice, List.append_assoc, List.getElem?_append_left (by omega), List.getElem?_take_of_lt hk]

theorem splice_getElem?_inside (hp : p ≤ d.length) (hk : p ≤ k) (hlt : k < p + e.length) :
    (splice d e p)[k]? = e[k - p]? := by
  have hlen : (d.take p).length = p := List.length_take_of_le hp
  rw [splice, List.append_assoc, List.getElem?_append_right (by omega), hlen, List.getElem?_append_left (by omega)]

theorem splice_getElem?_after (hp : p ≤ d.length) (hk : p + e.length ≤ k) :
    (splice d e p)[k]? = d[k - e.length]? := by
  have hlen : (d.take p ++ e).length = p + e.length := by rw [List.length_append, List.length_take_of_le hp]
  have hidx : p + (k - (p + e.length)) = k - e.length := by omega
  rw [splice, List.getElem?_append_right (by omega), hlen, List.getElem?_drop, hidx]

end Bytes

/-! ### `WINSERT` when its checks pass (41_splice.md R76, R77) -/

theorem exec_winsert {s : State} {u src : Nat} {d e : Writer} {p : Word} (hv : s.fault.valid = false)
    (hd : s.writers[u]? = some d) (he : s.writers[src]? = some e) (hne : src ≠ u) (ha : e.nheld = 0#3)
    (hp : p.toNat ≤ d.len) (hc : d.len + e.len ≤ s.wcap) :
    exec (.winsert u src p) s = .next ((s.setWriter u { d with buf := splice d.buf e.buf p.toNat }).respond
      (Response.completed 0#32)) := by
  have haligned : ¬ (!e.aligned) = true := by simp [e.aligned_iff.mpr ha]
  show s.command (s.withWriter u _) = _
  rw [State.withWriter_some hd, State.withWriter_some he, if_neg hne, if_neg haligned, if_neg (Nat.not_lt.mpr hp),
    if_neg (Nat.not_lt.mpr hc), State.command_done _ hv]
  rfl

/-- Settles O33: the one completion of `WINSERT`, the three parts of the spliced buffer, and the source, which is another
context than the one written. -/
theorem spliceResult : Obligations.SpliceResult := by
  intro s u src d e p hv hd he hne ha hp hc
  have hsrc : (s.writers.set u { d with buf := splice d.buf e.buf p.toNat })[src]? = some e :=
    (List.getElem?_set_ne hne.symm).trans he
  exact ⟨_, { d with buf := splice d.buf e.buf p.toNat }, exec_winsert hv hd he hne ha hp hc, rfl, hsrc, rfl, rfl,
    splice_length, fun _ => splice_getElem?_before hp, fun _ => splice_getElem?_inside hp,
    fun _ => splice_getElem?_after hp⟩

end Sys2Proof.Machine
end

section
/-! PROOFS. The statements of the family 42_reader.md: `RBIND` as a fresh construction (R81), and the checks, the value
and the reader a `READ` leaves (R82, R83). -/

namespace Sys2Proof.Machine

/-! ### `RBIND` (42_reader.md R81) -/

theorem exec_rbind_done {s : State} {u : Nat} {r : Reader} {base length : Word} (hv : s.fault.valid = false)
    (hr : s.readers[u]? = some r) (h : base.toNat + length.toNat ≤ xmemSize) :
    exec (.rbind u base length) s =
      .next ((s.setReader u (Reader.bound base length)).respond (Response.completed 0#32)) := by
  show s.command (s.withReader u _) = _
  rw [State.withReader_some hr, if_neg (Nat.not_lt.mpr h), State.command_done _ hv]
  rfl

theorem raises_rbind {s : State} {u : Nat} {r : Reader} {base length : Word} (hv : s.fault.valid = false)
    (hr : s.readers[u]? = some r) (h : xmemSize < base.toNat + length.toNat) :
    Raises (.rbind u base length) s .bind := by
  refine (raises_iff rfl hv).mpr ?_
  rw [State.withReader_some hr, if_pos h]

/-- Settles O34: the two sides of the range check, whatever the reader was. -/
theorem bindResult : Obligations.BindResult := by
  intro s u base length hv hu
  have hr := List.getElem?_eq_getElem hu
  exact ⟨exec_rbind_done hv hr, raises_rbind hv hr⟩

/-! ### The bytes a `READ` loads (42_reader.md R83 steps 3 and 4) -/

theorem Reader.wordAt_succ (r : Reader) (x : Memory) (c k : Nat) :
    r.wordAt x c (k + 1) = 256 * r.wordAt x c k + (r.byteAt x (c + k)).toNat := by
  simp only [Reader.wordAt, List.range_succ, List.foldl_append, List.foldl_cons, List.foldl_nil]

/-- The low byte of the big-endian number of loaded bytes is the last one loaded. -/
theorem Reader.wordAt_low_byte (r : Reader) (x : Memory) {c nb : Nat} (h : 1 ≤ nb) :
    BitVec.ofNat 8 (r.wordAt x c nb) = r.byteAt x (c + nb - 1) := by
  obtain ⟨k, rfl⟩ := Nat.exists_eq_add_of_le' h
  apply BitVec.eq_of_toNat_eq
  rw [BitVec.toNat_ofNat, r.wordAt_succ, Nat.mul_add_mod, Nat.mod_eq_of_lt (BitVec.isLt _)]
  rfl

/-- A number of `a` bits above a number of `b` bits is one of `a + b` bits. -/
theorem mul_two_pow_add_lt {a b hi lo : Nat} (hhi : hi < 2 ^ a) (hlo : lo < 2 ^ b) :
    hi * 2 ^ b + lo < 2 ^ (a + b) :=
  calc hi * 2 ^ b + lo < hi * 2 ^ b + 2 ^ b := Nat.add_lt_add_left hlo _
    _ = (hi + 1) * 2 ^ b := (Nat.succ_mul _ _).symm
    _ ≤ 2 ^ a * 2 ^ b := Nat.mul_le_mul_right _ hhi
    _ = 2 ^ (a + b) := (Nat.pow_add _ _ _).symm

/-- The held bits above the high bits of the bytes loaded make a number of `n` bits, so `READ` cuts nothing off. -/
theorem Reader.loaded_value_lt (r : Reader) (x : Memory) {n : Nat} (h : r.nheld.toNat ≤ n) :
    r.held.toNat % 2 ^ r.nheld.toNat * 2 ^ (n - r.nheld.toNat) +
        r.wordAt x r.cursor.toNat ((n - r.nheld.toNat + 7) / 8) /
          2 ^ (8 * ((n - r.nheld.toNat + 7) / 8) - (n - r.nheld.toNat)) < 2 ^ n := by
  have hheld : r.held.toNat % 2 ^ r.nheld.toNat < 2 ^ r.nheld.toNat := Nat.mod_lt _ (Nat.two_pow_pos _)
  have hsum := mul_two_pow_add_lt hheld (r.wordAt_high_lt x r.cursor.toNat (n - r.nheld.toNat))
  rwa [Nat.add_sub_cancel' h] at hsum

/-- Settles O35: the outcomes of `Reader.take` in the order of its checks; the counts and the value of a read that loads
bytes fit the fields that take them. -/
theorem readResult : Obligations.ReadResult := by
  intro s u n r hv hr hb
  refine ⟨fun hn => ?_, fun _ hh => exec_read_held hv hr hh, fun hn hh hc => ?_, fun hn hh hc => ?_⟩
  · exact (raises_read hv hr).mpr (Reader.take_width hn)
  · exact (raises_read hv hr).mpr (Reader.take_overrun hn hh hc)
  · have hvalue := Nat.lt_of_lt_of_le (r.loaded_value_lt s.xmem (Nat.le_of_lt hh))
      (Nat.pow_le_pow_right Nat.two_pos hn)
    have hblen := r.blen.isLt
    refine ⟨_, _, exec_read_done hv hr (Reader.take_load hn hh hb hc), rfl, rfl, ?_, ?_, ?_, ?_⟩
    · exact (BitVec.toNat_ofNat _ _).trans (Nat.mod_eq_of_lt (Nat.lt_of_le_of_lt hc hblen))
    · exact r.wordAt_low_byte s.xmem (by omega)
    · exact (BitVec.toNat_ofNat _ _).trans (Nat.mod_eq_of_lt (by omega))
    · exact (BitVec.toNat_ofNat _ _).trans (Nat.mod_eq_of_lt hvalue)

end Sys2Proof.Machine
end

section
/-! PROOFS. The statements of the family 43_lookahead.md: what `PREAD` answers (R91, R92), and where it completes though
the `READ` of the same width faults (R93). -/

namespace Sys2Proof.Machine

/-- A number of `m` bits shifted left to a width of at most 32 bits loses none of them. -/
theorem lookahead_value_lt {m n d : Nat} (hm : m ≤ n) (hn : n ≤ 32) (hd : d < 2 ^ m) :
    d * 2 ^ (n - m) < 2 ^ 32 := by
  have hwidth := mul_two_pow_add_lt hd (Nat.two_pow_pos (n - m))
  rw [Nat.add_zero, Nat.add_sub_cancel' hm] at hwidth
  exact Nat.lt_of_lt_of_le hwidth (Nat.pow_le_pow_right Nat.two_pos hn)

/-- A lookahead answers what the read of `min(n, left)` bits delivers, shifted left by the shortfall
(43_lookahead.md R91). -/
theorem Reader.peek_done_of_take {r : Reader} {x : Memory} {n : Nat} {p : Reader × Word}
    (hb : r.base.toNat + r.blen.toNat ≤ 2 ^ 32) (hn : n ≤ 32) (h : r.take x (min n r.left) = .done p) :
    ∃ d : Word, r.peek x n = .done d ∧ d.toNat = p.2.toNat * 2 ^ (n - min n r.left) := by
  refine ⟨_, by rw [Reader.peek_eq hn, h, Result.andThen_done], ?_⟩
  have hfits := lookahead_value_lt (Nat.min_le_left n r.left) hn (Reader.take_lt hb h)
  rw [BitVec.toNat_ofNat, Nat.shiftLeft_eq, Nat.mod_eq_of_lt hfits]

/-- A read of a legal width that asks more bits than are left overruns the buffer (42_reader.md R82, R83 step 2). -/
theorem Reader.take_overrun_of_left_lt {r : Reader} {x : Memory} {n : Nat} (hc : r.cursor.toNat ≤ r.blen.toNat)
    (hn : n ≤ 32) (hl : r.left < n) : r.take x n = .raise .overrun := by
  have hh : r.nheld.toNat < n := Nat.lt_of_le_of_lt (Nat.le_add_left _ _) hl
  have hnofit := mt (r.fits_iff n hc hh).mp (Nat.not_le.mpr hl)
  exact Reader.take_overrun hn hh (Nat.not_le.mp hnofit)

/-- Settles O36: under the invariant the read of `min(n, left)` bits completes, and the lookahead is made of it. -/
theorem lookaheadResult : Obligations.LookaheadResult := by
  intro s u n r hv hr hi
  have hleft : 8 * r.blen.toNat - (8 * r.cursor.toNat - r.nheld.toNat) = r.left := (r.left_eq hi).1.symm
  refine ⟨fun hn => (raises_pread hv hr).mpr (Reader.peek_width hn), fun hn => ?_⟩
  obtain ⟨p, htake⟩ := Reader.take_completes (x := s.xmem) hi (Nat.le_trans (Nat.min_le_left _ _) hn)
    (Nat.min_le_right _ _)
  obtain ⟨hb, _, _⟩ := hi
  obtain ⟨d, hpeek, hd⟩ := Reader.peek_done_of_take hb hn htake
  rw [hleft]
  exact ⟨s.setReader u p.1, p.2, d, exec_read_done hv hr htake, exec_pread_done hv hr hpeek, hd⟩

/-- Settles O37: the `READ` finds too few bytes, while the `PREAD` completes as in every state with the invariant. -/
theorem lookaheadPastTheEndCompletes : Obligations.LookaheadPastTheEndCompletes := by
  intro s u n r hv hr hi hn hl
  obtain ⟨_, hlookahead⟩ := lookaheadResult s u n r hv hr hi
  obtain ⟨_, _, y, _, hpread, _⟩ := hlookahead hn
  obtain ⟨_, hc, _⟩ := hi
  exact ⟨(raises_read hv hr).mpr (Reader.take_overrun_of_left_lt hc hn hl), y, hpread⟩

end Sys2Proof.Machine
end

section
/-! PROOFS. The statements of the family 49_laws.md: the bit string of a writer and what is appended to it (R95 to R98,
R104, R105), the stream of a reader and what is delivered from it (R100 to R102, R106), splice and reuse (R107, R108),
the round trip (R103) and the scenarios of the source (R109). -/

namespace Sys2Proof.Machine

/-! ### The logical bit string of a writer (49_laws.md R96) -/

theorem Writer.wbits_drop (w : Writer) :
    w.wbits.drop (8 * w.buf.length) = (be 8 w.held.toNat).take w.nheld.toNat := by
  rw [Writer.wbits, ← bitsOf_length, List.drop_left]

theorem Writer.wbits_of_aligned {w : Writer} (h : w.nheld = 0#3) : w.wbits = bitsOf w.buf := by
  simp [Writer.wbits, h]

/-- Under the invariant the held byte is the tail of the bit string beyond the buffer, zero-filled. -/
theorem Writer.be_held_eq_tail {w : Writer} {wcap : Nat} (hi : w.Inv wcap) :
    be 8 w.held.toNat = w.wbits.drop (8 * w.buf.length) ++ List.replicate (8 - w.nheld.toNat) false := by
  obtain ⟨hheld, _⟩ := hi
  have hlow : (be 8 w.held.toNat).drop w.nheld.toNat = List.replicate (8 - w.nheld.toNat) false := by
    rw [be_drop (Nat.le_of_lt w.nheld.isLt), ← be_mod, (held_inv_iff _ _).mp hheld, be_zero_value]
  rw [w.wbits_drop, ← hlow, List.take_append_drop]

theorem be_byte_inj {a b : Byte} (h : be 8 a.toNat = be 8 b.toNat) : a = b := by
  have hval := congrArg val h
  rw [val_be, val_be, Nat.mod_eq_of_lt a.isLt, Nat.mod_eq_of_lt b.isLt] at hval
  exact BitVec.eq_of_toNat_eq hval

/-- Settles O41: the counts of two such writers agree by the lengths of their bit strings, their held bytes by the
zero-filled tails. -/
theorem writerIsItsBitString : Obligations.WriterIsItsBitString := by
  refine ⟨fun _ => rfl, Writer.wbits_length, fun _ _ => Writer.be_held_eq_tail, ?_⟩
  intro w w' wcap hi hi' hbuf hbits
  have hcount : w.nheld.toNat = w'.nheld.toNat := by
    have hlen := congrArg List.length hbits
    rw [Writer.wbits_length, Writer.wbits_length, Writer.len, Writer.len, hbuf] at hlen
    exact Nat.add_left_cancel hlen
  have hheld : be 8 w.held.toNat = be 8 w'.held.toNat := by
    rw [Writer.be_held_eq_tail hi, Writer.be_held_eq_tail hi', hbits, hbuf, hcount]
  exact (Writer.mk.injEq ..).mpr ⟨hbuf, be_byte_inj hheld, BitVec.eq_of_toNat_eq hcount⟩

/-! ### What a `WRITE` and an align command append (49_laws.md R97, R98) -/

/-- Settles O42: the pseudocode of `WRITE` appends the field and counts its bits. -/
theorem writeAppendsTheField : Obligations.WriteAppendsTheField := by
  intro s t u n v w w' _ hw ⟨hheld, _⟩ h ht hw'
  obtain ⟨p, hp, rfl⟩ := exec_completed_of_running h ht
  have hput := hp.write_put hw hw'
  obtain ⟨hlen, hnheld⟩ := Writer.put_counts hput
  exact ⟨Writer.put_wbits hheld hput, by omega, by omega⟩

theorem Writer.padBits_add_nheld (w : Writer) :
    w.padBits + w.nheld.toNat = if w.nheld = 0#3 then 0 else 8 := by
  rcases w.padBits_eq with ⟨ha, hp⟩ | ⟨hne, hp, _⟩
  · rw [hp, if_pos ha, ha]
    rfl
  · rw [hp, if_neg hne]
    exact Nat.sub_add_cancel (Nat.le_of_lt w.nheld.isLt)

/-- The counts after a completed write of the pad bits: no bit is held, and a byte is added if bits were held. -/
theorem Writer.put_pad_counts {w w' : Writer} {wcap v : Nat} (h : w.put wcap w.padBits v = .done w') :
    w'.nheld = 0#3 ∧ w'.len = w.len + if w.nheld = 0#3 then 0 else 1 := by
  obtain ⟨hlen, hnheld⟩ := Writer.put_counts h
  rw [w.padBits_add_nheld] at hlen hnheld
  refine ⟨BitVec.eq_of_toNat_eq ?_, ?_⟩
  · rw [hnheld]
    split <;> rfl
  · rw [hlen]
    split <;> rfl

theorem Writer.put_pad_completes {w : Writer} {wcap v : Nat} (hv : v < 2 ^ w.padBits)
    (hroom : w.nheld ≠ 0#3 → w.len + 1 ≤ wcap) (hi : w.Inv wcap) : ∃ w', w.put wcap w.padBits v = .done w' := by
  obtain ⟨_, hcap⟩ := hi
  have hpad : w.padBits < 8 := Nat.mod_lt _ (by omega)
  refine Writer.put_completes (by omega) hv ?_
  rw [w.padBits_add_nheld]
  split
  · exact hcap
  · next hne => exact hroom hne

/-- An aligned writer with the invariant holds the byte zero. -/
theorem Writer.held_of_aligned {w : Writer} {wcap : Nat} (hi : w.Inv wcap) (h : w.nheld = 0#3) : w.held = 0#8 := by
  obtain ⟨hheld, _⟩ := hi
  have hz := (held_inv_iff _ _).mp hheld
  rw [h] at hz
  exact BitVec.eq_of_toNat_eq ((Nat.mod_eq_of_lt w.held.isLt).symm.trans hz)

/-- Settles O43: both align commands are completed writes of the pad bits, which append these bits and hold none. -/
theorem alignAppendsThePad : Obligations.AlignAppendsThePad := by
  intro s u w hv hw hi hroom
  have ⟨hheld, _⟩ := hi
  obtain ⟨z, hz⟩ := Writer.put_pad_completes (Nat.two_pow_pos _) hroom hi
  obtain ⟨o, ho⟩ := Writer.put_pad_completes (mask_lt _) hroom hi
  obtain ⟨haz, hlz⟩ := Writer.put_pad_counts hz
  obtain ⟨hao, hlo⟩ := Writer.put_pad_counts ho
  refine ⟨z, o, exec_walign0_done hv hw ((w.alignZero_eq_put _).trans hz), exec_walign1_done hv hw ho, ?_, ?_,
    haz, Writer.held_of_aligned (Writer.put_inv hi hz) haz, hao, Writer.held_of_aligned (Writer.put_inv hi ho) hao,
    hlz, hlo, Writer.wbits_of_aligned haz, Writer.wbits_of_aligned hao⟩
  · rw [Writer.put_wbits hheld hz, be_zero_value]
    rfl
  · rw [Writer.put_wbits hheld ho, be_mask]
    rfl

/-! ### Completed commands that append to one writer (49_laws.md R104, R105) -/

/-- A completed `WRITE` or align command is a completed write of `bitsAdded` bits on its writer. -/
theorem Completed.append_put {i : Instr} {s : State} {p : State × Word} {u : Nat} {w : Writer}
    (h : Completed i s p) (ha : appendsTo u i = true) (hw : s.writers[u]? = some w) :
    ∃ v w', w.put s.wcap (bitsAdded i w) v = .done w' ∧ p = (s.setWriter u w', 0#32) := by
  cases h with
  | write hw₀ hput =>
    obtain rfl := eq_of_beq ha
    obtain rfl := Option.some.inj (hw₀.symm.trans hw)
    exact ⟨_, _, hput, rfl⟩
  | walign0 hw₀ hput =>
    obtain rfl := eq_of_beq ha
    obtain rfl := Option.some.inj (hw₀.symm.trans hw)
    exact ⟨_, _, (Writer.alignZero_eq_put ..).symm.trans hput, rfl⟩
  | walign1 hw₀ hput =>
    obtain rfl := eq_of_beq ha
    obtain rfl := Option.some.inj (hw₀.symm.trans hw)
    exact ⟨_, _, hput, rfl⟩
  | wlen | wbyte | wclear | winsert | rbind | read | pread => cases ha

theorem State.setWriter_get {s : State} {u : Nat} {w : Writer} (h : s.writers[u]? = some w) (w' : Writer) :
    (s.setWriter u w').writers[u]? = some w' :=
  List.getElem?_set_self (List.getElem?_eq_some_iff.mp h).1

theorem State.setReader_get {s : State} {u : Nat} {r : Reader} (h : s.readers[u]? = some r) (r' : Reader) :
    (s.setReader u r').readers[u]? = some r' :=
  List.getElem?_set_self (List.getElem?_eq_some_iff.mp h).1

/-- An align command of a writer is one of the two. -/
theorem eq_or_eq_of_mem_pair {a b c : Instr} (h : a ∈ [b, c]) : a = b ∨ a = c := by
  rcases List.mem_cons.mp h with hb | hc
  · exact .inl hb
  · exact .inr (List.mem_singleton.mp hc)

/-- On an aligned writer either align command only answers `(OK, 0)` (40_writer.md R64, R65). -/
theorem exec_align_of_aligned {s : State} {u : Nat} {w : Writer} {b : Instr} (hv : s.fault.valid = false)
    (hw : s.writers[u]? = some w) (ha : w.nheld = 0#3) (hb : b ∈ [Instr.walign0 u, Instr.walign1 u]) :
    exec b s = .next (s.respond (Response.completed 0#32)) := by
  rcases eq_or_eq_of_mem_pair hb with rfl | rfl
  · obtain ⟨hnoop, _⟩ := alignZeroResult s u w hv hw
    exact hnoop ha
  · obtain ⟨hnoop, _⟩ := alignOneResult s u w hv hw
    exact hnoop ha

theorem appendsTo_of_align {u : Nat} {a : Instr} (h : a ∈ [Instr.walign0 u, Instr.walign1 u]) :
    appendsTo u a = true ∧ ∀ w, bitsAdded a w = w.padBits := by
  rcases eq_or_eq_of_mem_pair h with rfl | rfl <;> exact ⟨beq_self_eq_true u, fun _ => rfl⟩

/-- A command that completes on a writer finds that writer (60_exceptions.md R116). -/
theorem Completed.append_writer {i : Instr} {s : State} {p : State × Word} {u : Nat} (h : Completed i s p)
    (ha : appendsTo u i = true) : ∃ w, s.writers[u]? = some w := by
  cases h with
  | write hw | walign0 hw | walign1 hw =>
    obtain rfl := eq_of_beq ha
    exact ⟨_, hw⟩
  | wlen | wbyte | wclear | winsert | rbind | read | pread => cases ha

/-- Settles O44: a completed align command leaves its writer aligned. -/
theorem alignIsIdempotent : Obligations.AlignIsIdempotent := by
  intro s t u a b _ ha hb h ht
  obtain ⟨happ, hbits⟩ := appendsTo_of_align ha
  obtain ⟨p, hp, rfl⟩ := exec_completed_of_running h ht
  obtain ⟨w, hw⟩ := hp.append_writer happ
  obtain ⟨v, w', hput, rfl⟩ := hp.append_put happ hw
  rw [hbits] at hput
  obtain ⟨haligned, _⟩ := Writer.put_pad_counts hput
  exact exec_align_of_aligned ht (State.setWriter_get hw w') haligned hb

theorem Writer.put_bitCount {w w' : Writer} {wcap n v : Nat} (h : w.put wcap n v = .done w') :
    w'.bitCount = w.bitCount + n := by
  obtain ⟨hlen, hnheld⟩ := Writer.put_counts h
  simp only [Writer.bitCount]
  omega

/-- The inversion of `tally`: the first command completes, and the rest is tallied from the state it leaves. -/
theorem tally_cons {u : Nat} {i : Instr} {rest : List Instr} {s t : State} {w : Writer} {total : Nat}
    (hw : s.writers[u]? = some w) (h : tally u (i :: rest) s = some (t, total)) :
    ∃ s' n, exec i s = .next s' ∧ s'.fault.valid = false ∧ tally u rest s' = some (t, n) ∧
      total = bitsAdded i w + n := by
  rw [tally] at h
  split at h
  · next s' hs' =>
    split at h
    · cases h
    · next hrun =>
      rw [hw] at h
      split at h
      · next _ _ _ t' n hw' hrest =>
        cases hw'
        cases h
        exact ⟨s', n, hs', by simpa using hrun, hrest, rfl⟩
      · cases h
  · cases h
  · cases h

/-- Settles O50, by induction on the commands: each adds to the bit count what it adds to the tally. -/
theorem bitCountConservation : Obligations.BitCountConservation := by
  intro cmds
  induction cmds with
  | nil =>
    intro s t u total w w' _ _ hw hw' h
    cases h
    obtain rfl := Option.some.inj (hw.symm.trans hw')
    rfl
  | cons i rest ih =>
    intro s t u total w w' happ _ hw hw' h
    obtain ⟨s', n, hs', hrun, hrest, rfl⟩ := tally_cons hw h
    obtain ⟨p, hp, rfl⟩ := exec_completed_of_running hs' hrun
    obtain ⟨v, w₁, hput, rfl⟩ := hp.append_put (happ i List.mem_cons_self) hw
    have hfirst : w₁.bitCount = w.bitCount + bitsAdded i w := Writer.put_bitCount hput
    have hlater := ih _ t u n w₁ w' (fun j hj => happ j (List.mem_cons_of_mem _ hj)) hrun
      (State.setWriter_get hw w₁) hw' hrest
    rw [hlater, ← Nat.add_assoc]
    exact congrArg (· + n) hfirst

/-! ### The invariants of the contexts (49_laws.md R95, R100) -/

/-- Settles O53: the writers stay as they are, or a completed command keeps the invariant of each. -/
theorem commandsKeepWriterInvariant : Obligations.CommandsKeepWriterInvariant := by
  intro i s t hi h
  obtain ⟨_, _, hc, ⟨hw, _⟩ | ⟨p, hp, hw, _⟩⟩ := exec_contexts h
  · rw [hw, hc]
    exact hi
  · rw [hw, hc]
    exact hp.writers_inv hi

/-- What a completed command can do to one reader: nothing, a fresh binding, or a read. -/
theorem Completed.reader_cases {i : Instr} {s : State} {p : State × Word} {j : Nat} {r r' : Reader}
    (h : Completed i s p) (hr : s.readers[j]? = some r) (hr' : p.1.readers[j]? = some r') :
    r' = r ∨ (∃ base length : Word, base.toNat + length.toNat ≤ 2 ^ 32 ∧ r' = Reader.bound base length) ∨
      ∃ n d, r.take s.xmem n = .done (r', d) := by
  by_cases hj : readerWritten i = some j
  · cases h with
    | rbind hr₀ hb =>
      obtain rfl := Option.some.inj hj
      exact .inr (.inl ⟨_, _, hb, Option.some.inj (hr'.symm.trans (State.setReader_get hr _))⟩)
    | read hr₀ ht =>
      obtain rfl := Option.some.inj hj
      obtain rfl := Option.some.inj (hr₀.symm.trans hr)
      obtain rfl := Option.some.inj (hr'.symm.trans (State.setReader_get hr _))
      exact .inr (.inr ⟨_, _, ht⟩)
    | write | walign0 | walign1 | wclear | winsert | wlen | wbyte | pread => cases hj
  · rw [h.readers_frame hj, hr] at hr'
    exact .inl (Option.some.inj hr').symm

/-- After a read that completes, `held` is the last byte loaded (10_state.md R23 clause (d)). -/
theorem Reader.take_fresh {r : Reader} {x : Memory} {n : Nat} {p : Reader × Word} (hi : r.Inv) (hf : r.Fresh x)
    (h : r.take x n = .done p) : p.1.Fresh x := by
  obtain ⟨hb, _, _⟩ := hi
  obtain ⟨hn, hh | ⟨hh, hl⟩⟩ := Reader.take_done h
  · rw [Reader.take_held hh] at h
    cases h
    exact fun hne => hf fun h0 => hne (by simp [h0])
  · rw [Reader.take_load hn hh hb hl] at h
    cases h
    have hblen := r.blen.isLt
    have hnb : 1 ≤ (n - r.nheld.toNat + 7) / 8 := by omega
    intro _
    simp only [BitVec.toNat_ofNat, Nat.mod_eq_of_lt (Nat.lt_of_le_of_lt hl hblen), r.wordAt_low_byte x hnb,
      Reader.byteAt]
    congr 1
    omega

/-- A completed command keeps the invariant and the freshness of one reader, whatever the other readers are. -/
theorem Completed.reader_inv_fresh {i : Instr} {s : State} {p : State × Word} {j : Nat} {r r' : Reader}
    (h : Completed i s p) (hr : s.readers[j]? = some r) (hi : r.Inv) (hf : r.Fresh s.xmem)
    (hr' : p.1.readers[j]? = some r') : r'.Inv ∧ r'.Fresh s.xmem := by
  rcases h.reader_cases hr hr' with rfl | ⟨base, length, hb, rfl⟩ | ⟨n, d, ht⟩
  · exact ⟨hi, hf⟩
  · exact ⟨Reader.bound_inv hb, fun hne => absurd rfl hne⟩
  · exact ⟨Reader.take_inv hi ht, Reader.take_fresh hi hf ht⟩

/-- Settles O54: the readers stay as they are, or a completed command keeps the invariant of each. -/
theorem commandsKeepReaderInvariant : Obligations.CommandsKeepReaderInvariant := by
  refine ⟨fun i s t hi h => ?_, fun i s t j r r' hr hi hf h hr' => ?_⟩
  · obtain ⟨_, _, _, ⟨_, he⟩ | ⟨p, hp, _, he⟩⟩ := exec_contexts h
    · rw [he]
      exact hi
    · rw [he]
      exact hp.readers_inv hi
  · obtain ⟨hx, _, _, ⟨_, he⟩ | ⟨p, hp, _, he⟩⟩ := exec_contexts h
    · rw [he, hr] at hr'
      obtain rfl := Option.some.inj hr'
      rw [hx]
      exact ⟨hi, hf⟩
    · rw [he] at hr'
      rw [hx]
      exact hp.reader_inv_fresh hr hi hf hr'

/-! ### What the reads deliver (49_laws.md R101, R102, R106) -/

/-- The held bits lie within the bytes consumed, so the read position is not cut off at 0 (log 7). -/
theorem Reader.nheld_le_loaded (r : Reader) (hi : r.Inv) : r.nheld.toNat ≤ 8 * r.cursor.toNat := by
  obtain ⟨_, _, hheld⟩ := hi
  have h8 := r.nheld.isLt
  by_cases h0 : r.nheld = 0#3
  · rw [h0]
    exact Nat.zero_le _
  · have := hheld h0
    omega

/-- A read that completes advances the read position by its width. -/
theorem Reader.take_pos {r : Reader} {x : Memory} {n : Nat} {p : Reader × Word} (hi : r.Inv)
    (h : r.take x n = .done p) : p.1.pos = r.pos + n := by
  have hloaded := r.nheld_le_loaded hi
  obtain ⟨hb, _, _⟩ := hi
  have h8 := r.nheld.isLt
  have hblen := r.blen.isLt
  obtain ⟨hn, hh | ⟨hh, hl⟩⟩ := Reader.take_done h
  · rw [Reader.take_held hh] at h
    cases h
    simp only [Reader.pos, BitVec.toNat_ofNat]
    omega
  · rw [Reader.take_load hn hh hb hl] at h
    cases h
    simp only [Reader.pos, BitVec.toNat_ofNat]
    omega

/-- The bits of the stream from the read position on are the bits left. -/
theorem Reader.stream_drop_length {r : Reader} (x : Memory) (hi : r.Inv) :
    ((r.stream x).drop r.pos).length = r.left := by
  rw [(r.left_eq hi).1, List.length_drop, Reader.stream, bitsOf_length, List.length_map, List.length_range]

/-- The result of a read that completes is the number of the next bits of the stream. -/
theorem Reader.take_val {r : Reader} {x : Memory} {n : Nat} {p : Reader × Word} (hi : r.Inv) (hf : r.Fresh x)
    (h : r.take x n = .done p) : p.2.toNat = val (r.nextBits x n) := by
  have ⟨hb, _, _⟩ := hi
  rw [Reader.take_nextBits hi hf h, val_be, Nat.mod_eq_of_lt (Reader.take_lt hb h)]

/-- Settles O45: a read that completes, or the overrun of one that asks too much. -/
theorem readDeliversTheNextBits : Obligations.ReadDeliversTheNextBits := by
  intro s u n r hv hr hi hf hn
  refine ⟨fun hl => ?_, fun hl => ?_⟩
  · obtain ⟨p, htake⟩ := Reader.take_completes (x := s.xmem) hi hn hl
    obtain ⟨hbase, hblen⟩ := Reader.take_binding htake
    refine ⟨p.1, p.2, exec_read_done hv hr htake, Reader.take_val hi hf htake, ?_, Reader.take_pos hi htake,
      hbase, hblen⟩
    rw [Reader.take_nextBits hi hf htake, be_length]
  · obtain ⟨_, hc, _⟩ := hi
    exact (raises_read hv hr).mpr (Reader.take_overrun_of_left_lt hc hn hl)

/-- The next bits of the zero-filled stream: those that are left, then zeros. -/
theorem Reader.nextBitsZeroFilled_eq {r : Reader} (x : Memory) (n : Nat) (hi : r.Inv) :
    r.nextBitsZeroFilled x n =
      r.nextBits x (min n r.left) ++ List.replicate (n - min n r.left) false := by
  have hpos : r.pos ≤ (r.stream x).length := by
    rw [Reader.stream, bitsOf_length, List.length_map, List.length_range]
    exact (r.left_eq hi).2
  have hlen := Reader.stream_drop_length x hi
  have htake : ((r.stream x).drop r.pos).take (min n r.left) = ((r.stream x).drop r.pos).take n := by
    rw [← hlen, ← List.take_eq_take_min]
  rw [Reader.nextBitsZeroFilled, Reader.nextBits, List.drop_append_of_le_length hpos, List.take_append,
    List.take_replicate, hlen, htake]
  congr 2
  omega

/-- Settles O46: the read of the bits that are left, with zeros below its result for the shortfall. -/
theorem lookaheadDeliversTheNextBits : Obligations.LookaheadDeliversTheNextBits := by
  intro s u n r hv hr hi hf hn
  have ⟨hb, _, _⟩ := hi
  obtain ⟨p, htake⟩ := Reader.take_completes (x := s.xmem) hi (Nat.le_trans (Nat.min_le_left _ _) hn)
    (Nat.min_le_right _ _)
  obtain ⟨d, hpeek, hd⟩ := Reader.peek_done_of_take hb hn htake
  refine ⟨d, exec_pread_done hv hr hpeek, ?_, ?_⟩
  · rw [Reader.nextBitsZeroFilled_eq _ _ hi, val_append, val_replicate_false, List.length_replicate, Nat.add_zero, hd,
      Reader.take_val hi hf htake]
  · rw [Reader.nextBitsZeroFilled_eq _ _ hi, Reader.take_nextBits hi hf htake, List.length_append, be_length,
      List.length_replicate, Nat.add_sub_cancel' (Nat.min_le_left ..)]

/-- Settles O47: with `n` bits left the lookahead is the read of `n` bits with no shortfall; its response alone differs
in the state the later read meets. -/
theorem lookaheadThenRead : Obligations.LookaheadThenRead := by
  intro s u n r hv hr hi hn
  have ⟨hb, hc, _⟩ := hi
  obtain ⟨p, htake⟩ := Reader.take_completes (x := s.xmem) hi (Nat.le_trans (Nat.min_le_left _ _) hn)
    (Nat.min_le_right _ _)
  obtain ⟨d, hpeek, hd⟩ := Reader.peek_done_of_take hb hn htake
  refine ⟨d, exec_pread_done hv hr hpeek, fun hl => ?_, fun hl => ?_⟩
  · rw [Nat.min_eq_left hl] at htake hd
    have hsame : p.2 = d := BitVec.eq_of_toNat_eq (by rw [hd, Nat.sub_self, Nat.pow_zero, Nat.mul_one])
    have hafter := exec_read_done (s := s.respond (Response.completed d)) hv hr htake
    refine ⟨s.setReader u p.1, hsame ▸ exec_read_done hv hr htake, hafter.trans ?_⟩
    simp [State.respond, State.setReader, Response.completed, hsame]
  · exact (raises_read (s := s.respond (Response.completed d)) hv hr).mpr (Reader.take_overrun_of_left_lt hc hn hl)

/-! ### Splice and reuse (49_laws.md R107, R108) -/

/-- Settles O48: the completion of `WINSERT`, which writes a context other than its source. -/
theorem spliceIsTakeInsertDrop : Obligations.SpliceIsTakeInsertDrop := by
  intro s u src d e p hv hd he hne ha hp hc
  exact ⟨_, exec_winsert hv hd he hne ha hp hc, rfl, State.setWriter_get hd _,
    (List.getElem?_set_ne hne.symm).trans he⟩

/-- Settles O49: the writer set by a completed `WCLEAR` and the reader set by a completed `RBIND`. -/
theorem reuseIsFresh : Obligations.ReuseIsFresh := by
  intro s t p x _
  refine ⟨fun u hu h ht => ?_, fun u base length h ht => ?_⟩
  · obtain ⟨q, hq, rfl⟩ := exec_completed_of_running h ht
    cases hq with
    | wclear hw =>
      have hreset : (State.resetWith p x).writers[u]? = some Writer.empty := by simp [hu]
      exact (State.setWriter_get hw _).trans hreset.symm
  · obtain ⟨q, hq, rfl⟩ := exec_completed_of_running h ht
    cases hq with
    | rbind hr => exact State.setReader_get hr _

/-! ### Runs of a script (70_reset_and_hazards.md R142, log 3) -/

/-- The state after the further responses `rs`. -/
def State.answer (s : State) (rs : List Response) : State := { s with trace := s.trace ++ rs }

theorem State.answer_nil (s : State) : s.answer [] = s := by simp [State.answer]

theorem State.answer_answer (s : State) (rs rs' : List Response) :
    (s.answer rs).answer rs' = s.answer (rs ++ rs') := by
  simp [State.answer]

theorem State.setWriter_answer (s : State) (rs : List Response) (u : Nat) (w w' : Writer) :
    ((s.setWriter u w).answer rs).setWriter u w' = (s.setWriter u w').answer rs := by
  simp [State.setWriter, State.answer]

theorem State.setReader_answer (s : State) (rs : List Response) (u : Nat) (r r' : Reader) :
    ((s.setReader u r).answer rs).setReader u r' = (s.setReader u r').answer rs := by
  simp [State.setReader, State.answer]

theorem play_nil (s : State) : play [] s = .next (s.withHost []) := rfl

/-- The first action of a script runs, then the rest of the script. -/
theorem play_cons {a : HostAction} {rest : List HostAction} {s t : State}
    (h : takeAction a (s.withHost rest) = .next (t.withHost rest)) : play (a :: rest) s = play rest t :=
  run_step (M := Sys2Proof.core) (s := { s with host := a :: rest }) h rest.length

/-- A well-formed command is presented as its encoding and runs as itself (30_encoding.md R50, R56). -/
theorem play_command {i : Instr} {rest : List HostAction} {s t : State} (hi : i.WellFormed)
    (h : exec i (s.withHost rest) = .next (t.withHost rest)) : play (.command (encode i) :: rest) s = play rest t :=
  play_cons ((runWord_legal (decodeOfEncode i hi) _).trans h)

/-- What a `WRITE` does when its pseudocode is done, as the first action of a script. -/
theorem play_write {s : State} {u n : Nat} {v : Word} {w w' : Writer} {rest : List HostAction}
    (hwf : (Instr.write u n v).WellFormed) (hv : s.fault.valid = false) (hw : s.writers[u]? = some w)
    (h : w.put s.wcap n v.toNat = .done w') :
    play (.command (encode (.write u n v)) :: rest) s =
      play rest ((s.setWriter u w').answer [Response.completed 0#32]) :=
  play_command hwf (exec_write_done (s := s.withHost rest) hv hw h)

theorem play_read {s : State} {u n : Nat} {r : Reader} {p : Reader × Word} {rest : List HostAction}
    (hwf : (Instr.read u n).WellFormed) (hv : s.fault.valid = false) (hr : s.readers[u]? = some r)
    (h : r.take s.xmem n = .done p) :
    play (.command (encode (.read u n)) :: rest) s =
      play rest ((s.setReader u p.1).answer [Response.completed p.2]) :=
  play_command hwf (exec_read_done (s := s.withHost rest) hv hr h)

theorem play_rbind {s : State} {u : Nat} {base length : Word} {r : Reader} {rest : List HostAction}
    (hwf : (Instr.rbind u base length).WellFormed) (hv : s.fault.valid = false) (hr : s.readers[u]? = some r)
    (h : base.toNat + length.toNat ≤ xmemSize) :
    play (.command (encode (.rbind u base length)) :: rest) s =
      play rest ((s.setReader u (Reader.bound base length)).answer [Response.completed 0#32]) :=
  play_command hwf (exec_rbind_done (s := s.withHost rest) hv hr h)

/-! ### The round trip: fields written (49_laws.md R103) -/

/-- The bits of a list of fields `(width, value)`, in order. -/
def fieldBits (fields : List (Nat × Word)) : List Bool := fields.flatMap fun f => be f.1 f.2.toNat

theorem fieldBits_cons (f : Nat × Word) (fields : List (Nat × Word)) :
    fieldBits (f :: fields) = be f.1 f.2.toNat ++ fieldBits fields := rfl

theorem fieldBits_length (fields : List (Nat × Word)) : (fieldBits fields).length = (fields.map Prod.fst).sum := by
  simp [fieldBits, List.length_flatMap]

/-- A field has a legal width and a value that fits it. -/
abbrev FieldFits (f : Nat × Word) : Prop := f.1 ≤ 32 ∧ f.2.toNat < 2 ^ f.1

theorem wellFormed_write {u n : Nat} (hu : u < 256) (hn : n ≤ 32) (v : Word) : (Instr.write u n v).WellFormed := by
  have hn' : n < 256 := by omega
  simp [Instr.WellFormed, Instr.wellFormed, hu, hn']

theorem wellFormed_read {u n : Nat} (hu : u < 256) (hn : n ≤ 32) : (Instr.read u n).WellFormed :=
  wellFormed_write hu hn 0#32

/-- The `WRITE`s of fields that fit complete and append the bits of the fields. -/
theorem play_writes {u : Nat} (hu : u < 256) (rest : List HostAction) :
    ∀ (fields : List (Nat × Word)) (s : State) (w : Writer), s.fault.valid = false → s.writers[u]? = some w → w.Inv s.wcap → (∀ f ∈ fields, FieldFits f) →
    (w.bitCount + (fieldBits fields).length) / 8 ≤ s.wcap →
    ∃ w' : Writer, w'.Inv s.wcap ∧ w'.wbits = w.wbits ++ fieldBits fields ∧
      play (presents (fields.map fun f => .write u f.1 f.2) ++ rest) s =
        play rest ((s.setWriter u w').answer (List.replicate fields.length (Response.completed 0#32))) := by
  intro fields
  induction fields with
  | nil =>
    intro s w _ hw hi _ _
    refine ⟨w, hi, (List.append_nil _).symm, ?_⟩
    rw [State.setWriter_self s u w hw]
    exact congrArg (play rest) s.answer_nil.symm
  | cons f fields ih =>
    intro s w hv hw hi hfits hroom
    obtain ⟨hn, hval⟩ := hfits f List.mem_cons_self
    rw [fieldBits_cons, List.length_append, be_length] at hroom
    have hspace : w.len + (f.1 + w.nheld.toNat) / 8 ≤ s.wcap := by
      simp only [Writer.bitCount] at hroom
      omega
    obtain ⟨w₁, hput⟩ := Writer.put_completes hn hval hspace
    obtain ⟨w', hi', hbits, hplay⟩ := ih ((s.setWriter u w₁).answer [Response.completed 0#32]) w₁ hv
      (State.setWriter_get hw w₁) (Writer.put_inv hi hput) (fun g hg => hfits g (List.mem_cons_of_mem _ hg))
      (by rw [Writer.put_bitCount hput, Nat.add_assoc]; exact hroom)
    refine ⟨w', hi', ?_, (play_write (wellFormed_write hu hn _) hv hw hput).trans (hplay.trans ?_)⟩
    · obtain ⟨hheld, _⟩ := hi
      rw [hbits, Writer.put_wbits hheld hput, fieldBits_cons, List.append_assoc]
    · rw [State.setWriter_answer, State.answer_answer]
      rfl

/-- An align command on a writer with room completes; what it appends makes the bytes whole. -/
theorem play_align {s : State} {u : Nat} {w : Writer} {a : Instr} (hu : u < 256) (hv : s.fault.valid = false)
    (hw : s.writers[u]? = some w) (hi : w.Inv s.wcap) (hroom : w.nheld ≠ 0#3 → w.len + 1 ≤ s.wcap)
    (ha : a ∈ [Instr.walign0 u, Instr.walign1 u]) (rest : List HostAction) :
    ∃ (bytes : List Byte) (pad : List Bool), bitsOf bytes = w.wbits ++ pad ∧ pad.length = w.padBits ∧
      play (.command (encode a) :: rest) s =
        play rest ((s.setWriter u { buf := bytes, held := 0#8, nheld := 0#3 }).answer [Response.completed 0#32]) := by
  obtain ⟨z, o, hz, ho, hbz, hbo, hnz, hhz, hno, hho, _, _, hwz, hwo⟩ :=
    alignAppendsThePad (s.withHost rest) u w hv hw hi hroom
  have hwf : a.WellFormed := by
    rcases eq_or_eq_of_mem_pair ha with rfl | rfl <;> simpa [Instr.WellFormed, Instr.wellFormed] using hu
  rcases eq_or_eq_of_mem_pair ha with rfl | rfl
  · refine ⟨z.buf, _, hwz.symm.trans hbz, List.length_replicate, play_command hwf (hz.trans ?_)⟩
    rw [← hhz, ← hnz]
    rfl
  · refine ⟨o.buf, _, hwo.symm.trans hbo, List.length_replicate, play_command hwf (ho.trans ?_)⟩
    rw [← hho, ← hno]
    rfl

/-! ### The round trip: bytes stored -/

/-- The memory after the bytes are written from address `base` on. -/
def Memory.putBytes (m : Memory) (base : Nat) : List Byte → Memory
  | [] => m
  | b :: bytes => (m.put base b).putBytes (base + 1) bytes

theorem Memory.get_putBytes_of_lt {a : Nat} : ∀ {bytes : List Byte} {m : Memory} {base : Nat}, m.wf = true →
    base + bytes.length ≤ xmemSize → a < base → (m.putBytes base bytes).get a = m.get a := by
  intro bytes
  induction bytes with
  | nil => intros; rfl
  | cons b bytes ih =>
    intro m base hm hfit ha
    rw [List.length_cons] at hfit
    have hput := Memory.get_put (addr := base) (b := b) hm a
    rw [if_neg (Nat.ne_of_lt ha)] at hput
    exact (ih (Memory.wf_put hm (by omega)) (by omega) (by omega)).trans hput

/-- The bytes read back from where they were stored are the bytes stored (20_memory.md R40). -/
theorem Memory.map_get_putBytes : ∀ {bytes : List Byte} {m : Memory} {base : Nat}, m.wf = true →
    base + bytes.length ≤ xmemSize →
    ((List.range bytes.length).map fun k => (m.putBytes base bytes).get (base + k)) = bytes := by
  intro bytes
  induction bytes with
  | nil => intros; rfl
  | cons b bytes ih =>
    intro m base hm hfit
    rw [List.length_cons] at hfit
    have hm' : (m.put base b).wf = true := Memory.wf_put hm (by omega)
    have hfirst : ((m.put base b).putBytes (base + 1) bytes).get base = b := by
      rw [Memory.get_putBytes_of_lt hm' (by omega) (Nat.lt_succ_self base), Memory.get_put hm, if_pos rfl]
    have hlater := ih hm' (base := base + 1) (by omega)
    rw [List.length_cons, List.range_succ_eq_map, List.map_cons, List.map_map, Memory.putBytes]
    refine List.cons_eq_cons.mpr ⟨hfirst, ?_⟩
    refine Eq.trans (List.map_congr_left fun k _ => ?_) hlater
    exact congrArg (Memory.get _) (Nat.add_right_comm base k 1)

/-- The state after the host has stored the bytes from address `base` on. -/
def State.hostStore (s : State) (base : Nat) (bytes : List Byte) : State :=
  { s with xmem := s.xmem.putBytes base bytes }

/-- The host's writes store the bytes and change nothing else. -/
theorem play_stores (rest : List HostAction) : ∀ (bytes : List Byte) (base : Nat) (s : State),
    base + bytes.length ≤ xmemSize →
    play (stores base bytes ++ rest) s = play rest (s.hostStore base bytes) := by
  intro bytes
  induction bytes with
  | nil => intros; rfl
  | cons b bytes ih =>
    intro base s hfit
    rw [List.length_cons] at hfit
    have hbase : (BitVec.ofNat 32 base).toNat = base := by
      rw [BitVec.toNat_ofNat]
      exact Nat.mod_eq_of_lt (by simp only [xmemSize] at hfit; omega)
    have hfirst : play (stores base (b :: bytes) ++ rest) s =
        play (stores (base + 1) bytes ++ rest) (s.hostWrite (BitVec.ofNat 32 base) b) := play_cons rfl
    rw [hfirst, ih (base + 1) _ (by omega), State.hostWrite, hbase]
    rfl

/-- A reader freshly bound where bytes were stored has the bits of these bytes as its stream. -/
theorem Reader.stream_bound {m : Memory} {base length : Word} {bytes : List Byte} (hm : m.wf = true)
    (hlen : length.toNat = bytes.length) (hfit : base.toNat + bytes.length ≤ xmemSize) :
    (Reader.bound base length).stream (m.putBytes base.toNat bytes) = bitsOf bytes := by
  rw [Reader.stream, Reader.bound_blen, hlen]
  exact congrArg bitsOf (Memory.map_get_putBytes hm hfit)

/-! ### The round trip: fields read -/

/-- What is left of the stream after a read that completes. -/
theorem Reader.take_stream_drop {r : Reader} {x : Memory} {n : Nat} {p : Reader × Word} (hi : r.Inv)
    (h : r.take x n = .done p) : (p.1.stream x).drop p.1.pos = ((r.stream x).drop r.pos).drop n := by
  obtain ⟨hbase, hblen⟩ := Reader.take_binding h
  have hstream : p.1.stream x = r.stream x := by simp only [Reader.stream, Reader.byteAt, hbase, hblen]
  rw [hstream, Reader.take_pos hi h, List.drop_drop]

/-- A read where a field stands in the stream completes with the value of the field. -/
theorem Reader.take_field {r : Reader} {x : Memory} {n : Nat} {v : Word} {tail : List Bool} (hi : r.Inv)
    (hf : r.Fresh x) (hn : n ≤ 32) (hval : v.toNat < 2 ^ n) (hs : (r.stream x).drop r.pos = be n v.toNat ++ tail) :
    ∃ r' : Reader, r.take x n = .done (r', v) ∧ (r'.stream x).drop r'.pos = tail := by
  have hl : n ≤ r.left := by
    rw [← Reader.stream_drop_length x hi, hs, List.length_append, be_length]
    exact Nat.le_add_right _ _
  obtain ⟨⟨r', d⟩, htake⟩ := Reader.take_completes (x := x) hi hn hl
  have hd : d.toNat = v.toNat := by
    have hnext : r.nextBits x n = be n v.toNat := by
      rw [Reader.nextBits, hs, List.take_left' (be_length _ _)]
    rw [Reader.take_val hi hf htake, hnext, val_be, Nat.mod_eq_of_lt hval]
  obtain rfl := BitVec.eq_of_toNat_eq hd
  refine ⟨r', htake, (Reader.take_stream_drop hi htake).trans ?_⟩
  rw [hs, List.drop_left' (be_length _ _)]

/-- The `READ`s of the widths of the fields that stand in the stream answer their values, in order. -/
theorem play_reads {u : Nat} (hu : u < 256) (rest : List HostAction) (tail : List Bool) :
    ∀ (fields : List (Nat × Word)) (s : State) (r : Reader), s.fault.valid = false → s.readers[u]? = some r →
    r.Inv → r.Fresh s.xmem → (∀ f ∈ fields, FieldFits f) →
    (r.stream s.xmem).drop r.pos = fieldBits fields ++ tail →
    ∃ r' : Reader, r'.left = tail.length ∧
      play (presents (fields.map fun f => .read u f.1) ++ rest) s =
        play rest ((s.setReader u r').answer (fields.map fun f => Response.completed f.2)) := by
  intro fields
  induction fields with
  | nil =>
    intro s r _ hr hi _ _ hs
    refine ⟨r, by rw [← Reader.stream_drop_length s.xmem hi, hs]; rfl, ?_⟩
    rw [State.setReader_self s u r hr]
    exact congrArg (play rest) s.answer_nil.symm
  | cons f fields ih =>
    intro s r hv hr hi hf hfits hs
    obtain ⟨hn, hval⟩ := hfits f List.mem_cons_self
    rw [fieldBits_cons, List.append_assoc] at hs
    obtain ⟨r₁, htake, hs₁⟩ := Reader.take_field hi hf hn hval hs
    obtain ⟨r', hleft, hplay⟩ := ih ((s.setReader u r₁).answer [Response.completed f.2]) r₁ hv
      (State.setReader_get hr r₁) (Reader.take_inv hi htake) (Reader.take_fresh hi hf htake)
      (fun g hg => hfits g (List.mem_cons_of_mem _ hg)) hs₁
    refine ⟨r', hleft, (play_read (wellFormed_read hu hn) hv hr htake).trans (hplay.trans ?_)⟩
    rw [State.setReader_answer, State.answer_answer]
    rfl

/-! ### The round trip -/

/-- The fields written to an empty writer and aligned: the bytes it then holds, and the state the run ends in. -/
theorem play_writes_align {s : State} {fields : List (Nat × Word)} {u : Nat} {a : Instr} (hu : u < 256)
    (hv : s.fault.valid = false) (hw : s.writers[u]? = some Writer.empty) (hfits : ∀ f ∈ fields, FieldFits f)
    (hroom : ((fieldBits fields).length + 7) / 8 ≤ s.wcap) (ha : a ∈ [Instr.walign0 u, Instr.walign1 u]) :
    ∃ (bytes : List Byte) (pad : List Bool), bitsOf bytes = fieldBits fields ++ pad ∧
      pad.length = (8 - (fieldBits fields).length % 8) % 8 ∧
      play (presents ((fields.map fun f => Instr.write u f.1 f.2) ++ [a])) s =
        .next (((s.setWriter u { buf := bytes, held := 0#8, nheld := 0#3 }).answer
          (List.replicate (fields.length + 1) (Response.completed 0#32))).withHost []) := by
  obtain ⟨w, hi, hbits, hwrites⟩ := play_writes hu [.command (encode a)] fields s Writer.empty hv hw
    (Writer.empty_inv _) hfits (by
      rw [show Writer.empty.bitCount = 0 from rfl, Nat.zero_add]
      exact Nat.le_trans (Nat.div_le_div_right (Nat.le_add_right _ 7)) hroom)
  replace hbits : w.wbits = fieldBits fields := hbits
  have hcount : (fieldBits fields).length = 8 * w.len + w.nheld.toNat := hbits ▸ w.wbits_length
  have h8 := w.nheld.isLt
  have hspace : w.nheld ≠ 0#3 → w.len + 1 ≤ s.wcap := by
    intro hne
    have h0 : w.nheld.toNat ≠ 0 := fun h0 => hne (BitVec.eq_of_toNat_eq h0)
    omega
  obtain ⟨bytes, pad, hbytes, hpad, halign⟩ := play_align
    (s := (s.setWriter u w).answer (List.replicate fields.length (Response.completed 0#32)))
    hu hv (State.setWriter_get hw w) hi hspace ha []
  refine ⟨bytes, pad, hbits ▸ hbytes, ?_, ?_⟩
  · rw [hpad, hcount, Nat.mul_add_mod, Nat.mod_eq_of_lt h8]
    rfl
  · rw [presents, List.map_append]
    refine hwrites.trans (halign.trans ?_)
    rw [play_nil, State.setWriter_answer, State.answer_answer, ← List.replicate_succ']

/-- Bytes stored and bound, whose bits are those of the fields and a pad: the reads of the widths answer the values and
leave the pad unread. -/
theorem play_stores_reads {s : State} {fields : List (Nat × Word)} {u : Nat} {bytes : List Byte} {pad : List Bool}
    {base : Word} (hu : u < 256) (hv : s.fault.valid = false) (hr : u < s.readers.length) (hx : s.xmem.wf = true)
    (hfits : ∀ f ∈ fields, FieldFits f) (hbits : bitsOf bytes = fieldBits fields ++ pad)
    (hlen : bytes.length < 2 ^ 32) (hbase : base.toNat + bytes.length ≤ 2 ^ 32) :
    ∃ (t : State) (r' : Reader),
      play (stores base.toNat bytes ++ presents (.rbind u base (BitVec.ofNat 32 bytes.length) ::
        fields.map fun f => Instr.read u f.1)) s = .next t ∧
      t.trace = s.trace ++ Response.completed 0#32 :: fields.map (fun f => Response.completed f.2) ∧
      t.readers[u]? = some r' ∧ r'.left = pad.length := by
  have hlength : (BitVec.ofNat 32 bytes.length).toNat = bytes.length := by
    rw [BitVec.toNat_ofNat, Nat.mod_eq_of_lt hlen]
  have hbound : base.toNat + (BitVec.ofNat 32 bytes.length).toNat ≤ 2 ^ 32 := by rwa [hlength]
  have hr₁ : (s.hostStore base.toNat bytes).readers[u]? = some s.readers[u] := List.getElem?_eq_getElem hr
  have hwf : (Instr.rbind u base (BitVec.ofNat 32 bytes.length)).WellFormed := by
    simpa [Instr.WellFormed, Instr.wellFormed] using hu
  have hstores := play_stores (presents (.rbind u base (BitVec.ofNat 32 bytes.length) ::
    fields.map fun f => Instr.read u f.1)) bytes base.toNat s hbase
  have hrbind := play_rbind (s := s.hostStore base.toNat bytes)
    (rest := presents (fields.map fun f => Instr.read u f.1)) hwf hv hr₁ hbound
  obtain ⟨r', hleft, hreads⟩ := play_reads hu [] pad fields
    (((s.hostStore base.toNat bytes).setReader u (Reader.bound base (BitVec.ofNat 32 bytes.length))).answer
      [Response.completed 0#32])
    _ hv (State.setReader_get hr₁ _) (Reader.bound_inv hbound) (fun hne => absurd rfl hne) hfits
    ((Reader.stream_bound hx hlength hbase).trans hbits)
  rw [List.append_nil, State.setReader_answer, State.answer_answer] at hreads
  exact ⟨(((s.hostStore base.toNat bytes).setReader u r').answer _).withHost [], r',
    hstores.trans (hrbind.trans hreads), rfl, State.setReader_get hr₁ r', hleft⟩

/-- Settles O51: the bytes are the bits of the fields and a pad of less than a byte, so reading them back gives the
fields. -/
theorem roundTrip : Obligations.RoundTrip := by
  intro s fields w r align ⟨⟨⟨_, hnw⟩, ⟨_, hnr⟩, _, hcap⟩, _, _, _, hx⟩ hv hw hr hfits hroom ha
  have hwlt : w < 256 := Nat.lt_of_lt_of_le (List.getElem?_eq_some_iff.mp hw).1 hnw
  have hrlt : r < 256 := Nat.lt_of_lt_of_le hr hnr
  rw [← fieldBits_length] at hroom ⊢
  obtain ⟨bytes, pad, hbits, hpad, hplay⟩ := play_writes_align hwlt hv hw hfits hroom ha
  have hlen : bytes.length = ((fieldBits fields).length + 7) / 8 := by
    have hcount := congrArg List.length hbits
    rw [bitsOf_length, List.length_append, hpad] at hcount
    omega
  refine ⟨_, bytes, hplay, rfl, State.setWriter_get hw _, hlen, fun base hbase => ?_⟩
  obtain ⟨t, r', hplay', htrace, hr', hleft⟩ := play_stores_reads
    (s := ((s.setWriter w { buf := bytes, held := 0#8, nheld := 0#3 }).answer
      (List.replicate (fields.length + 1) (Response.completed 0#32))).withHost [])
    hrlt hv hr hx hfits hbits (by simp only at hcap; omega) hbase
  exact ⟨t, r', hplay', htrace, hr', hleft.trans hpad⟩

/-! ### The scenarios of the source (49_laws.md R109) -/

/-- Settles O52: the two scripts of 95_test_vectors.md V1 and V2, run by the model to their end. -/
theorem sourceScenarios : Obligations.SourceScenarios := by
  refine ⟨⟨_, rfl, ?data, ?status, ?left⟩, ⟨_, rfl, ?ones⟩⟩
  case data | status | left | ones => decide

end Sys2Proof.Machine
end

section
/-! PROOFS. The statements of the family 60_exceptions.md: fault entry (R111), the halted state and its end by reset alone
(R112, R113), and exactly when each command raises each cause (R116 to R125). -/

namespace Sys2Proof.Machine

/-! ### Fault entry (60_exceptions.md R111) -/

/-- A completed command records no fault. -/
theorem Completed.running {i : Instr} {s : State} {p : State × Word} (h : Completed i s p)
    (hv : s.fault.valid = false) : (State.finish p).fault.valid = false := by
  obtain ⟨hf, _⟩ := h.keeps
  rw [State.finish, State.respond_fault, hf, hv]

theorem exec_fault_entry {i : Instr} {s t : State} (hv : s.fault.valid = false) (h : exec i s = .next t)
    (ht : t.fault.valid = true) : ∃ c, t = s.takeFault c := by
  rcases exec_next h with ⟨hv', _⟩ | ⟨_, p, hp, rfl⟩ | ⟨_, hc⟩
  · simp [hv] at hv'
  · simp [hp.running hv] at ht
  · exact hc

/-- Settles O12: of the three outcomes of a command, a running engine is left halted by fault entry alone; an illegal word
has no other outcome. -/
theorem faultEntryChangesOnlyFault : Obligations.FaultEntryChangesOnlyFault := by
  refine ⟨fun i s t => exec_fault_entry, fun w s t hv h ht => ?_⟩
  cases hd : decode w with
  | some i =>
    rw [runWord_legal hd] at h
    exact exec_fault_entry hv h ht
  | none =>
    rw [runWord_illegal hd, State.command_raise _ hv] at h
    cases h
    exact ⟨.illegal, rfl⟩

/-! ### The halted state (60_exceptions.md R112, R113) -/

theorem exec_halted (i : Instr) {s : State} (hv : s.fault.valid = true) : exec i s = .next s.haltedReply := by
  obtain ⟨x, hx, _⟩ := exec_eq_command i s
  exact hx.trans (State.command_halted x hv)

theorem runWord_halted (c : CmdWord) {s : State} (hv : s.fault.valid = true) : runWord c s = .next s.haltedReply := by
  cases hd : decode c with
  | some i => exact (runWord_legal hd s).trans (exec_halted i hv)
  | none => exact (runWord_illegal hd s).trans (State.command_halted _ hv)

theorem play_halted_command (c : CmdWord) (rest : List HostAction) {s : State} (hv : s.fault.valid = true) :
    play (.command c :: rest) s = play rest s.haltedReply :=
  play_cons (runWord_halted c (s := s.withHost rest) hv)

theorem play_writeXmem (addr : Word) (b : Byte) (rest : List HostAction) (s : State) :
    play (.writeXmem addr b :: rest) s = play rest (s.hostWrite addr b) :=
  play_cons rfl

/-- Settles O14, by induction on the script: a command is answered by the halted reply, a byte written by the host by
nothing. -/
theorem faultIsKeptUntilReset : Obligations.FaultIsKeptUntilReset := by
  intro script
  induction script with
  | nil =>
    intro s t _ _ h
    rw [play_nil] at h
    cases h
    exact ⟨rfl, rfl, rfl, (List.append_nil _).symm⟩
  | cons a rest ih =>
    intro s t hv hreset h
    have hrest : HostAction.reset ∉ rest := fun hm => hreset (List.mem_cons_of_mem a hm)
    cases a with
    | command c =>
      rw [play_halted_command c rest hv] at h
      obtain ⟨hf, hw, hr, htr⟩ := ih s.haltedReply t hv hrest h
      refine ⟨hf, hw, hr, htr.trans ?_⟩
      rw [List.countP_cons_of_pos rfl, List.replicate_succ, State.haltedReply_trace, List.append_assoc]
      rfl
    | writeXmem addr b =>
      rw [play_writeXmem] at h
      rw [List.countP_cons_of_neg (by simp [HostAction.isCommand])]
      exact ih (s.hostWrite addr b) t hv hrest h
    | reset => exact absurd List.mem_cons_self hreset

/-! ### The checks of the pseudocode, as conditions (60_exceptions.md R114) -/

/-- One check of a command, in front of the checks that follow it (60_exceptions.md R114). -/
theorem Result.guard_eq_raise_iff {α : Type} {x : Result α} {p : Prop} [Decidable p] {k c : Cause} :
    (if p then .raise k else x) = .raise c ↔ (c = k ∧ p) ∨ (¬ p ∧ x = .raise c) := by
  by_cases hp : p
  · simp [hp, eq_comm]
  · simp [hp]

/-- The causes of `WRITE` on one writer context, each after the checks before it (R117 to R119). -/
theorem Writer.put_eq_raise_iff {w : Writer} {wcap n v : Nat} {c : Cause} :
    w.put wcap n v = .raise c ↔
      (c = .width ∧ 32 < n) ∨ (c = .value ∧ n ≤ 32 ∧ 2 ^ n ≤ v) ∨
      (c = .overflow ∧ n ≤ 32 ∧ v < 2 ^ n ∧ 8 ≤ n + w.nheld.toNat ∧ wcap < w.len + (n + w.nheld.toNat) / 8) := by
  constructor
  · intro h
    rcases w.put_cases wcap n v with ⟨hn, hp⟩ | ⟨hn, hv, hp⟩ | ⟨hn, hv, ht, hc, hp⟩ | ⟨_, _, _, _, hp⟩ <;>
      cases hp.symm.trans h
    · exact .inl ⟨rfl, hn⟩
    · exact .inr (.inl ⟨rfl, hn, hv⟩)
    · exact .inr (.inr ⟨rfl, hn, hv, ht, hc⟩)
  · rintro (⟨rfl, hn⟩ | ⟨rfl, hn, hv⟩ | ⟨rfl, hn, hv, ht, hc⟩)
    · exact Writer.put_width hn
    · exact Writer.put_value hn hv
    · exact Writer.put_overflow hn hv ht hc

/-- A `WRITE` of the pad bits, which both align commands come to, raises `F_OVERFLOW` alone (R119). -/
theorem Writer.put_pad_eq_raise_iff {w : Writer} {wcap v : Nat} {c : Cause} (hv : v < 2 ^ w.padBits) :
    w.put wcap w.padBits v = .raise c ↔ c = .overflow ∧ w.nheld ≠ 0#3 ∧ wcap < w.len + 1 := by
  rcases w.put_pad wcap v hv with ⟨ha, hp⟩ | ⟨hne, hc, hp⟩ | ⟨_, hc, hp⟩ <;> rw [hp]
  · simp [ha]
  · simp [hne, hc, eq_comm]
  · simp [Nat.not_lt.mpr hc]

/-- The causes of `READ` on one reader context (R117, R125). -/
theorem Reader.take_eq_raise_iff {r : Reader} {x : Memory} {n : Nat} {c : Cause} :
    r.take x n = .raise c ↔
      (c = .width ∧ 32 < n) ∨
      (c = .overrun ∧ n ≤ 32 ∧ r.nheld.toNat < n ∧
        r.blen.toNat < r.cursor.toNat + (n - r.nheld.toNat + 7) / 8) := by
  constructor
  · intro h
    rcases Nat.lt_or_ge 32 n with hn | hn
    · cases (Reader.take_width hn).symm.trans h
      exact .inl ⟨rfl, hn⟩
    rcases Nat.lt_or_ge r.nheld.toNat n with hh | hh
    · rcases Nat.lt_or_ge r.blen.toNat (r.cursor.toNat + (n - r.nheld.toNat + 7) / 8) with hc | hc
      · cases (Reader.take_overrun hn hh hc).symm.trans h
        exact .inr ⟨rfl, hn, hh, hc⟩
      · have hcur : r.cursor.toNat ≤ r.blen.toNat := by omega
        exact absurd h (Reader.take_ne_raise hn ((r.fits_iff n hcur hh).mp hc) hcur c)
    · cases (Reader.take_held hh).symm.trans h
  · rintro (⟨rfl, hn⟩ | ⟨rfl, hn, hh, hc⟩)
    · exact Reader.take_width hn
    · exact Reader.take_overrun hn hh hc

/-- `PREAD` raises `F_WIDTH` alone: the `READ` it is made of asks no more than the bits left (R117, R125, R126). -/
theorem Reader.peek_eq_raise_iff {r : Reader} {x : Memory} {n : Nat} {c : Cause} :
    r.peek x n = .raise c ↔ c = .width ∧ 32 < n := by
  rcases Nat.lt_or_ge 32 n with hn | hn
  · simp [Reader.peek_width hn, hn, eq_comm]
  · have hread : r.take x (min n r.left) ≠ .raise c := by
      rw [Ne, Reader.take_eq_raise_iff, Reader.left]
      omega
    rw [Reader.peek_eq hn, Result.andThen_eq_raise (by simp)]
    exact iff_of_false hread fun ⟨_, hgt⟩ => absurd hgt (Nat.not_lt.mpr hn)

/-! ### The checks of the commands -/

section Checks

variable {s : State} {u : Nat} {c : Cause}

theorem raises_unit_of_no_writer {i : Instr} {body : Writer → Result (State × Word)}
    (hx : exec i s = s.command (s.withWriter u body)) (hv : s.fault.valid = false) (hu : s.writers.length ≤ u) :
    Raises i s .unit :=
  (raises_iff hx hv).mpr (State.withWriter_none hu)

theorem raises_unit_of_no_reader {i : Instr} {body : Reader → Result (State × Word)}
    (hx : exec i s = s.command (s.withReader u body)) (hv : s.fault.valid = false) (hu : s.readers.length ≤ u) :
    Raises i s .unit :=
  (raises_iff hx hv).mpr (State.withReader_none hu)

/-- `WINSERT` needs its source also where its destination exists (R116). -/
theorem raises_winsert_no_source {src : Nat} {p : Word} (hv : s.fault.valid = false) (hsrc : s.writers.length ≤ src) :
    Raises (.winsert u src p) s .unit := by
  refine (raises_iff rfl hv).mpr ?_
  rw [State.withWriter]
  split
  · rfl
  · exact State.withWriter_none hsrc

theorem raises_walign0_iff {w : Writer} (hv : s.fault.valid = false) (hw : s.writers[u]? = some w) :
    Raises (.walign0 u) s c ↔ c = .overflow ∧ w.nheld ≠ 0#3 ∧ s.wcap < w.len + 1 := by
  rw [raises_walign0 hv hw, Writer.alignZero_eq_put]
  exact Writer.put_pad_eq_raise_iff (Nat.two_pow_pos _)

theorem raises_walign1_iff {w : Writer} (hv : s.fault.valid = false) (hw : s.writers[u]? = some w) :
    Raises (.walign1 u) s c ↔ c = .overflow ∧ w.nheld ≠ 0#3 ∧ s.wcap < w.len + 1 :=
  (raises_walign1 hv hw).trans (Writer.put_pad_eq_raise_iff (mask_lt _))

theorem raises_wbyte_iff {w : Writer} {k : Word} (hv : s.fault.valid = false) (hw : s.writers[u]? = some w) :
    Raises (.wbyte u k) s c ↔ c = .index ∧ w.len ≤ k.toNat := by
  refine (raises_iff rfl hv).trans ?_
  rw [State.withWriter_some hw, Writer.len]
  rcases Nat.lt_or_ge k.toNat w.buf.length with hk | hk
  · simp [List.getElem?_eq_getElem hk, Nat.not_le.mpr hk]
  · simp [hk, eq_comm]

/-- The causes of `WINSERT` on two existing contexts, each after the checks before it (R114, R119, R121 to R123). -/
theorem raises_winsert_iff {src : Nat} {d e : Writer} {p : Word} (hv : s.fault.valid = false)
    (hd : s.writers[u]? = some d) (he : s.writers[src]? = some e) :
    Raises (.winsert u src p) s c ↔
      (c = .self ∧ src = u) ∨ (c = .unaligned ∧ src ≠ u ∧ e.nheld ≠ 0#3) ∨
      (c = .position ∧ src ≠ u ∧ e.nheld = 0#3 ∧ d.len < p.toNat) ∨
      (c = .overflow ∧ src ≠ u ∧ e.nheld = 0#3 ∧ p.toNat ≤ d.len ∧ s.wcap < d.len + e.len) := by
  refine (raises_iff rfl hv).trans ?_
  rw [State.withWriter_some hd, State.withWriter_some he]
  have haligned : (!e.aligned) = true ↔ e.nheld ≠ 0#3 := by simp [Writer.aligned]
  simp only [Result.guard_eq_raise_iff, haligned, Ne, Decidable.not_not, Nat.not_lt, reduceCtorEq, and_false, or_false]
  simp only [and_or_left, and_left_comm, and_comm]

theorem raises_rbind_iff {r : Reader} {base length : Word} (hv : s.fault.valid = false)
    (hr : s.readers[u]? = some r) :
    Raises (.rbind u base length) s c ↔ c = .bind ∧ xmemSize < base.toNat + length.toNat := by
  refine (raises_iff rfl hv).trans ?_
  rw [State.withReader_some hr, Result.guard_eq_raise_iff]
  simp

end Checks

/-! ### The causes (60_exceptions.md R117 to R125) -/

/-- Settles O16, from the causes of `WRITE`, `READ` and `PREAD` on an existing context. -/
theorem widthFault : Obligations.WidthFault := by
  intro s hv
  refine ⟨fun u n v hu => ?_, fun u n hu => ?_, fun u n hu => ?_⟩
  · rw [raises_write hv (List.getElem?_eq_getElem hu), Writer.put_eq_raise_iff]
    simp
  · rw [raises_read hv (List.getElem?_eq_getElem hu), Reader.take_eq_raise_iff]
    simp
  · rw [raises_pread hv (List.getElem?_eq_getElem hu), Reader.peek_eq_raise_iff]
    simp

/-- A number needs more than `n` bits exactly when it has a bit at position `n` or above. -/
theorem two_pow_le_iff_exists_testBit {n v : Nat} : 2 ^ n ≤ v ↔ ∃ b, n ≤ b ∧ v.testBit b = true :=
  ⟨Nat.exists_ge_and_testBit_of_ge_two_pow, fun ⟨_, hb, hbit⟩ =>
    Nat.le_trans (Nat.pow_le_pow_right Nat.two_pos hb) (Nat.ge_two_pow_of_testBit hbit)⟩

/-- Settles O17: the value does not fit its width when a bit stands beyond it. -/
theorem valueFault : Obligations.ValueFault := by
  intro s u n v hv hu
  rw [raises_write hv (List.getElem?_eq_getElem hu), Writer.put_eq_raise_iff, ← two_pow_le_iff_exists_testBit]
  simp

/-- Settles O18; the splice of an empty source into a buffer within its capacity fits. -/
theorem overflowFault : Obligations.OverflowFault := by
  intro s u w hv hw
  refine ⟨fun n v => ?_, ?_, ?_, fun src e p he => ?_, fun src e p he hempty hcap h => ?_⟩
  · rw [raises_write hv hw, Writer.put_eq_raise_iff]
    simp
  · simp [raises_walign0_iff hv hw]
  · simp [raises_walign1_iff hv hw]
  · simp [raises_winsert_iff hv hw he]
  · obtain ⟨_, _, _, hfull⟩ : src ≠ u ∧ e.nheld = 0#3 ∧ p.toNat ≤ w.len ∧ s.wcap < w.len + e.len := by
      simpa [raises_winsert_iff hv hw he] using h
    omega

/-- Settles O22: the two forms of the condition agree on a cursor within the buffer, and the lookahead never tests it. -/
theorem overrunFault : Obligations.OverrunFault := by
  intro s u n r hv hr hc
  have hread : Raises (.read u n) s .overrun ↔ n ≤ 32 ∧ r.nheld.toNat < n ∧
      r.blen.toNat < r.cursor.toNat + (n - r.nheld.toNat + 7) / 8 := by
    rw [raises_read hv hr, Reader.take_eq_raise_iff]
    simp
  refine ⟨hread.trans ?_, hread, ?_⟩
  · omega
  · simp [raises_pread hv hr, Reader.peek_eq_raise_iff]

/-- Settles O11, by the definition of the codes. -/
theorem causeCodes : Obligations.CauseCodes :=
  ⟨rfl, rfl, rfl, rfl, rfl, rfl, rfl, rfl, rfl, rfl, rfl⟩

/-- Settles O13: the halted test comes before decoding and before every check of a command. -/
theorem haltedEngineAnswersTheCause : Obligations.HaltedEngineAnswersTheCause :=
  ⟨fun i _ hv => exec_halted i hv, fun c _ hv => runWord_halted c hv⟩

/-- Settles O15: the existence of the context is the first check of every command's pseudocode. -/
theorem missingContextFaults : Obligations.MissingContextFaults := by
  intro s hv
  refine ⟨fun u hu => ?writer, fun u src p => raises_winsert_no_source hv, fun u hu => ?reader⟩
  case writer =>
    refine ⟨fun n v => ?_, ?_, ?_, ?_, fun k => ?_, ?_, fun src p => ?_⟩ <;> exact raises_unit_of_no_writer rfl hv hu
  case reader =>
    refine ⟨fun base length => ?_, fun n => ?_, fun n => ?_⟩ <;> exact raises_unit_of_no_reader rfl hv hu

/-- Settles O19, from the one cause of `WBYTE` on an existing context. -/
theorem indexFault : Obligations.IndexFault := by
  intro s u w k hv hw
  simp [raises_wbyte_iff hv hw]

/-- Settles O20, from the causes of `WINSERT` in their order. -/
theorem spliceChecks : Obligations.SpliceChecks := by
  intro s u src d e p hv hd he
  simp [raises_winsert_iff hv hd he]

/-- Settles O21: `XMEM` has 2^32 bytes, and the sum of the check is exact. -/
theorem bindFault : Obligations.BindFault := by
  intro s u base length hv hu
  simp [raises_rbind_iff hv (List.getElem?_eq_getElem hu), xmemSize]

end Sys2Proof.Machine
end

section
/-! PROOFS. The statements of the family 70_reset_and_hazards.md: the reset input (R131), and the readers between reset and
their first `RBIND` (R133). -/

namespace Sys2Proof.Machine

/-! ### The reset input (70_reset_and_hazards.md R131) -/

theorem step_reset {s : State} {rest : List HostAction} (h : s.host = .reset :: rest) :
    step s = .next (s.withHost rest).applyReset :=
  step_action h

/-- What an action of the host that is not the reset input leaves of a halted engine's `FAULT` (60_exceptions.md R113). -/
theorem takeAction_halted_fault {a : HostAction} {s t : State} (hv : s.fault.valid = true) (ha : a ≠ .reset)
    (h : takeAction a s = .next t) : t.fault = s.fault := by
  cases a with
  | command c =>
    cases (runWord_halted c hv).symm.trans h
    exact s.haltedReply_fault
  | writeXmem addr b =>
    cases h
    exact s.hostWrite_fault addr b
  | reset => exact absurd rfl ha

/-- Settles O8: the reset input replaces every context, so the new contexts depend on the number of the old ones alone;
a halted engine keeps `FAULT` through the idle step and through every other action. -/
theorem resetInputEffect : Obligations.ResetInputEffect := by
  refine ⟨fun s rest hs => ?reset, fun s t hv hstep hreset => ?halted⟩
  case reset =>
    rw [step_reset hs, List.map_const', List.map_const']
    rfl
  case halted =>
    cases hs : s.host with
    | nil =>
      cases (step_idle hs).symm.trans hstep
      rfl
    | cons a rest =>
      have ha : a ≠ .reset := fun ha => hreset rest (by rw [hs, ha])
      rw [step_action hs] at hstep
      exact takeAction_halted_fault (s := s.withHost rest) hv ha hstep

/-! ### Before any binding (70_reset_and_hazards.md R133) -/

theorem Reader.unbound_left : Reader.unbound.left = 0 := rfl

theorem State.resetWith_getElem?_readers {p : Params} (x : Memory) {u : Nat} (hu : u < p.nr) :
    (State.resetWith p x).readers[u]? = some Reader.unbound :=
  List.getElem?_replicate_of_lt hu

/-- A reader bound to the empty buffer has no bit to read. -/
theorem Reader.unbound_take {x : Memory} {n : Nat} (h1 : 1 ≤ n) (hn : n ≤ 32) :
    Reader.unbound.take x n = .raise .overrun :=
  Reader.take_overrun_of_left_lt (Nat.le_refl _) hn h1

/-- A lookahead into the empty buffer is the read of no bits, with zeros for all of its width. -/
theorem Reader.unbound_peek (x : Memory) {n : Nat} (hn : n ≤ 32) : Reader.unbound.peek x n = .done 0#32 := by
  rw [Reader.peek_eq hn, Reader.unbound_left, Nat.min_zero, Reader.take_no_bits, Result.andThen_done,
    BitVec.toNat_ofNat, Nat.zero_mod, Nat.zero_shiftLeft]

/-- Settles O39: every reader after reset is bound to the empty buffer. -/
theorem readerBeforeBinding : Obligations.ReaderBeforeBinding := by
  intro p x u n hu h1 hn
  have hr := State.resetWith_getElem?_readers x hu
  exact ⟨(raises_read rfl hr).mpr (Reader.unbound_take h1 hn), exec_pread_done rfl hr (Reader.unbound_peek x hn)⟩

end Sys2Proof.Machine
end
